-- ==== Sys2Proof/Word.lean ====
section
/-! DEFINITION. The word types of the machine (00_scope.md R9): every value is unsigned. -/

namespace Sys2Proof

/-- `u8`: a memory cell, a data register, a timer (R20, R21, R29). -/
abbrev Byte := BitVec 8

/-- `u16`: an instruction word, pc, a stack entry, the container of I (R24, R25, R27, R80). -/
abbrev Word := BitVec 16

/-- `u12`: the immediate nnn (R82). -/
abbrev Addr := BitVec 12

/-- A 4-bit field of an opcode (R14, R82). -/
abbrev Nibble := BitVec 4

/-- The number of a data register V0..VF (R21). -/
abbrev Reg := Fin 16

end Sys2Proof
end

