-- ==== Sys2Proof/Machine/Flags.lean ====
section
/-! DEFINITION. The flag computations (10_state.md R22, R35; 42_register_arithmetic.md R158): what each of the six
flag-writing instructions puts into VF. -/

namespace Sys2Proof.Machine

/-- 8XY4: 1 when the unreduced sum exceeds 255 (R158, R166). -/
def carryFlag (vx vy : Byte) : Byte := if vx.toNat + vy.toNat > 255 then 1 else 0

/-- 8XY5 and 8XY7: 1 when the minuend is strictly greater, else 0, also for equal operands (R167, R169). -/
def noBorrowFlag (minuend subtrahend : Byte) : Byte := if minuend.toNat > subtrahend.toNat then 1 else 0

/-- 8XY6: bit 0 before the shift, 0 or 1 (R168). -/
def shiftRightFlag (vx : Byte) : Byte := vx &&& 0x01

/-- 8XYE: the raw masked bit 7, 0x00 or 0x80, not normalised (R170). -/
def shiftLeftFlag (vx : Byte) : Byte := vx &&& 0x80

/-- DXYN: 1 when a pixel that was set was cleared (R240). -/
def collisionFlag (collision : Bool) : Byte := if collision then 1 else 0

end Sys2Proof.Machine
end

