-- ==== Sys2Proof/Syntax.lean ====
section
/-! DEFINITION. The 34 instructions of spec/opcode_table.json (R86, R87), one constructor per row, with the fields its
row gives it. Each operand has exactly the width of its field (R82), so an operand out of range cannot be written. Where
a row has an ignored field (R88), it is kept as `ign`, so that a word and its instruction determine each other; no
meaning reads it (log 6). -/

namespace Sys2Proof

inductive Instr where
  /-- 00E0 CLS (R120). -/
  | cls
  /-- 00EE RET (R121). -/
  | ret
  /-- 1NNN JP nnn (R122). -/
  | jp (nnn : Addr)
  /-- 2NNN CALL nnn (R123). -/
  | call (nnn : Addr)
  /-- 3XNN SE Vx, nn (R140). -/
  | seImm (x : Reg) (nn : Byte)
  /-- 4XNN SNE Vx, nn (R141). -/
  | sneImm (x : Reg) (nn : Byte)
  /-- 5XYN SE Vx, Vy (R142); the low nibble is ignored. -/
  | seReg (x y : Reg) (ign : Nibble)
  /-- 6XNN LD Vx, nn (R160). -/
  | ldImm (x : Reg) (nn : Byte)
  /-- 7XNN ADD Vx, nn (R161). -/
  | addImm (x : Reg) (nn : Byte)
  /-- 8XY0 LD Vx, Vy (R162). -/
  | ldReg (x y : Reg)
  /-- 8XY1 OR Vx, Vy (R163). -/
  | orReg (x y : Reg)
  /-- 8XY2 AND Vx, Vy (R164). -/
  | andReg (x y : Reg)
  /-- 8XY3 XOR Vx, Vy (R165). -/
  | xorReg (x y : Reg)
  /-- 8XY4 ADD Vx, Vy (R166). -/
  | addReg (x y : Reg)
  /-- 8XY5 SUB Vx, Vy (R167). -/
  | sub (x y : Reg)
  /-- 8XY6 SHR Vx (R168); the y nibble is ignored. -/
  | shr (x : Reg) (ign : Nibble)
  /-- 8XY7 SUBN Vx, Vy (R169). -/
  | subn (x y : Reg)
  /-- 8XYE SHL Vx (R170); the y nibble is ignored. -/
  | shl (x : Reg) (ign : Nibble)
  /-- 9XYN SNE Vx, Vy (R143); the low nibble is ignored. -/
  | sneReg (x y : Reg) (ign : Nibble)
  /-- ANNN LD I, nnn (R200). -/
  | ldI (nnn : Addr)
  /-- BNNN JP V0, nnn (R124). -/
  | jpV0 (nnn : Addr)
  /-- CXNN RND Vx, nn (R191). -/
  | rnd (x : Reg) (nn : Byte)
  /-- DXYN DRW Vx, Vy, n (R240). -/
  | drw (x y : Reg) (n : Nibble)
  /-- EX9E SKP Vx (R144). -/
  | skp (x : Reg)
  /-- EXA1 SKNP Vx (R145). -/
  | sknp (x : Reg)
  /-- FX07 LD Vx, DT (R220). -/
  | ldVxDt (x : Reg)
  /-- FX0A LD Vx, K (R223). -/
  | ldVxK (x : Reg)
  /-- FX15 LD DT, Vx (R221). -/
  | ldDtVx (x : Reg)
  /-- FX18 LD ST, Vx (R222). -/
  | ldStVx (x : Reg)
  /-- FX1E ADD I, Vx (R201). -/
  | addI (x : Reg)
  /-- FX29 LD F, Vx (R202). -/
  | ldF (x : Reg)
  /-- FX33 LD B, Vx (R203). -/
  | ldB (x : Reg)
  /-- FX55 LD [I], Vx (R204). -/
  | stRegs (x : Reg)
  /-- FX65 LD Vx, [I] (R205). -/
  | ldRegs (x : Reg)
deriving DecidableEq, Repr

end Sys2Proof
end

