-- ==== Sys2Proof/WellFormed.lean ====
section
/-! DEFINITION. What is well formed: an instruction word (it matches a row of the opcode table, R87, R90), an instruction
(its spelling is canonical, R88) and a program image (it fits the memory, R302). The ranges of the operands need no check
here: the types of Syntax.lean carry them (R82). -/

namespace Sys2Proof

/-- A row of spec/opcode_table.json as the spec writes it (R87): a word `w` is of the row when `w & mask = match`. -/
structure Row where
  mnemonic : String
  pattern : Word
  mask : Word
deriving DecidableEq, Repr

def Row.matchesWord (r : Row) (w : Word) : Bool := w &&& r.mask == r.pattern

/-- The row of the opcode table that a constructor stands for. -/
def Instr.row : Instr → Row
  | .cls => ⟨"CLS", 0x00E0, 0xFFFF⟩
  | .ret => ⟨"RET", 0x00EE, 0xFFFF⟩
  | .jp _ => ⟨"JP_nnn", 0x1000, 0xF000⟩
  | .call _ => ⟨"CALL_nnn", 0x2000, 0xF000⟩
  | .seImm _ _ => ⟨"SE_Vx__nn", 0x3000, 0xF000⟩
  | .sneImm _ _ => ⟨"SNE_Vx__nn", 0x4000, 0xF000⟩
  | .seReg _ _ _ => ⟨"SE_Vx__Vy", 0x5000, 0xF000⟩
  | .ldImm _ _ => ⟨"LD_Vx__nn", 0x6000, 0xF000⟩
  | .addImm _ _ => ⟨"ADD_Vx__nn", 0x7000, 0xF000⟩
  | .ldReg _ _ => ⟨"LD_Vx__Vy", 0x8000, 0xF00F⟩
  | .orReg _ _ => ⟨"OR_Vx__Vy", 0x8001, 0xF00F⟩
  | .andReg _ _ => ⟨"AND_Vx__Vy", 0x8002, 0xF00F⟩
  | .xorReg _ _ => ⟨"XOR_Vx__Vy", 0x8003, 0xF00F⟩
  | .addReg _ _ => ⟨"ADD_Vx__Vy", 0x8004, 0xF00F⟩
  | .sub _ _ => ⟨"SUB_Vx__Vy", 0x8005, 0xF00F⟩
  | .shr _ _ => ⟨"SHR_Vx", 0x8006, 0xF00F⟩
  | .subn _ _ => ⟨"SUBN_Vx__Vy", 0x8007, 0xF00F⟩
  | .shl _ _ => ⟨"SHL_Vx", 0x800E, 0xF00F⟩
  | .sneReg _ _ _ => ⟨"SNE_Vx__Vy", 0x9000, 0xF000⟩
  | .ldI _ => ⟨"LD_I__nnn", 0xA000, 0xF000⟩
  | .jpV0 _ => ⟨"JP_V0__nnn", 0xB000, 0xF000⟩
  | .rnd _ _ => ⟨"RND_Vx__nn", 0xC000, 0xF000⟩
  | .drw _ _ _ => ⟨"DRW_Vx__Vy__n", 0xD000, 0xF000⟩
  | .skp _ => ⟨"SKP_Vx", 0xE09E, 0xF0FF⟩
  | .sknp _ => ⟨"SKNP_Vx", 0xE0A1, 0xF0FF⟩
  | .ldVxDt _ => ⟨"LD_Vx__DT", 0xF007, 0xF0FF⟩
  | .ldVxK _ => ⟨"LD_Vx__K", 0xF00A, 0xF0FF⟩
  | .ldDtVx _ => ⟨"LD_DT__Vx", 0xF015, 0xF0FF⟩
  | .ldStVx _ => ⟨"LD_ST__Vx", 0xF018, 0xF0FF⟩
  | .addI _ => ⟨"ADD_I__Vx", 0xF01E, 0xF0FF⟩
  | .ldF _ => ⟨"LD_F__Vx", 0xF029, 0xF0FF⟩
  | .ldB _ => ⟨"LD_B__Vx", 0xF033, 0xF0FF⟩
  | .stRegs _ => ⟨"LD__I___Vx", 0xF055, 0xF0FF⟩
  | .ldRegs _ => ⟨"LD_Vx___I", 0xF065, 0xF0FF⟩

/-- Rows 1 to 12 of spec/opcode_table.json. -/
def opcodeRows1 : List Row :=
  [
    ⟨"CLS", 0x00E0, 0xFFFF⟩,
    ⟨"RET", 0x00EE, 0xFFFF⟩,
    ⟨"JP_nnn", 0x1000, 0xF000⟩,
    ⟨"CALL_nnn", 0x2000, 0xF000⟩,
    ⟨"SE_Vx__nn", 0x3000, 0xF000⟩,
    ⟨"SNE_Vx__nn", 0x4000, 0xF000⟩,
    ⟨"SE_Vx__Vy", 0x5000, 0xF000⟩,
    ⟨"LD_Vx__nn", 0x6000, 0xF000⟩,
    ⟨"ADD_Vx__nn", 0x7000, 0xF000⟩,
    ⟨"LD_Vx__Vy", 0x8000, 0xF00F⟩,
    ⟨"OR_Vx__Vy", 0x8001, 0xF00F⟩,
    ⟨"AND_Vx__Vy", 0x8002, 0xF00F⟩
  ]

/-- Rows 13 to 24 of spec/opcode_table.json. -/
def opcodeRows2 : List Row :=
  [
    ⟨"XOR_Vx__Vy", 0x8003, 0xF00F⟩,
    ⟨"ADD_Vx__Vy", 0x8004, 0xF00F⟩,
    ⟨"SUB_Vx__Vy", 0x8005, 0xF00F⟩,
    ⟨"SHR_Vx", 0x8006, 0xF00F⟩,
    ⟨"SUBN_Vx__Vy", 0x8007, 0xF00F⟩,
    ⟨"SHL_Vx", 0x800E, 0xF00F⟩,
    ⟨"SNE_Vx__Vy", 0x9000, 0xF000⟩,
    ⟨"LD_I__nnn", 0xA000, 0xF000⟩,
    ⟨"JP_V0__nnn", 0xB000, 0xF000⟩,
    ⟨"RND_Vx__nn", 0xC000, 0xF000⟩,
    ⟨"DRW_Vx__Vy__n", 0xD000, 0xF000⟩,
    ⟨"SKP_Vx", 0xE09E, 0xF0FF⟩
  ]

/-- Rows 25 to 34 of spec/opcode_table.json. -/
def opcodeRows3 : List Row :=
  [
    ⟨"SKNP_Vx", 0xE0A1, 0xF0FF⟩,
    ⟨"LD_Vx__DT", 0xF007, 0xF0FF⟩,
    ⟨"LD_Vx__K", 0xF00A, 0xF0FF⟩,
    ⟨"LD_DT__Vx", 0xF015, 0xF0FF⟩,
    ⟨"LD_ST__Vx", 0xF018, 0xF0FF⟩,
    ⟨"ADD_I__Vx", 0xF01E, 0xF0FF⟩,
    ⟨"LD_F__Vx", 0xF029, 0xF0FF⟩,
    ⟨"LD_B__Vx", 0xF033, 0xF0FF⟩,
    ⟨"LD__I___Vx", 0xF055, 0xF0FF⟩,
    ⟨"LD_Vx___I", 0xF065, 0xF0FF⟩
  ]

/-- The 34 rows of spec/opcode_table.json (R86, R87), in its order. -/
def opcodeTable : List Row := opcodeRows1 ++ (opcodeRows2 ++ opcodeRows3)

/-- A word that matches no row is UnknownOpcode (R87, R90). -/
def legalWord (w : Word) : Bool := opcodeTable.any (fun r => r.matchesWord w)

/-- The canonical spelling: an ignored nibble is 0 (R88). A spelling that is not canonical still executes. -/
def Instr.canonical : Instr → Bool
  | .seReg _ _ ign | .sneReg _ _ ign | .shr _ ign | .shl _ ign => ign == 0
  | .cls | .ret | .jp _ | .call _ | .seImm _ _ | .sneImm _ _ | .ldImm _ _ | .addImm _ _ | .ldReg _ _ => true
  | .orReg _ _ | .andReg _ _ | .xorReg _ _ | .addReg _ _ | .sub _ _ | .subn _ _ | .ldI _ | .jpV0 _ => true
  | .rnd _ _ | .drw _ _ _ | .skp _ | .sknp _ | .ldVxDt _ | .ldVxK _ | .ldDtVx _ | .ldStVx _ | .addI _ => true
  | .ldF _ | .ldB _ | .stRegs _ | .ldRegs _ => true

/-- The largest program image: 4096 - 0x200 bytes (R7 MAX_PROG, R302). -/
def maxProgram : Nat := 3584

/-- A program image fits when its length is at most MAX_PROG; the empty image fits (R302, R303). -/
def imageFits (image : List Byte) : Bool := image.length ≤ maxProgram

end Sys2Proof
end

