-- ==== Sys2Proof/Decode.lean ====
section
/-! DEFINITION. Decoding (30_encoding.md R80 to R90): total on every word and on every list of bytes, rejecting by name.
After it, the encoder, written from the same table of formats (R84). -/

namespace Sys2Proof

/-- `w[hi:lo]` of R9: the field of `w` from bit `hi` down to bit `lo`, read as an unsigned number. -/
def field (w : Word) (hi lo : Nat) : Nat := w.toNat / 2 ^ lo % 2 ^ (hi - lo + 1)

/-- F, the family (R82). -/
def familyOf (w : Word) : Nat := field w 15 12

/-- x, the first register operand (R82). -/
def xOf (w : Word) : Reg := Fin.ofNat 16 (field w 11 8)

/-- y, the second register operand (R82). -/
def yOf (w : Word) : Reg := Fin.ofNat 16 (field w 7 4)

/-- The nibble in bits 7..4 of a word that ignores y (R88). -/
def yNibbleOf (w : Word) : Nibble := BitVec.ofNat 4 (field w 7 4)

/-- n, the low nibble (R82). -/
def nOf (w : Word) : Nibble := BitVec.ofNat 4 (field w 3 0)

/-- nn, the low byte (R82). -/
def nnOf (w : Word) : Byte := BitVec.ofNat 8 (field w 7 0)

/-- nnn, the 12-bit address (R82). -/
def nnnOf (w : Word) : Addr := BitVec.ofNat 12 (field w 11 0)

/-- Why bytes do not decode. -/
inductive DecodeError where
  /-- An illegal word (R90). -/
  | unknownOpcode (w : Word)
  /-- Fewer than two bytes are left (R80: a decoder always consumes exactly two). -/
  | truncated
deriving DecidableEq, Repr

/-- Family 0 dispatches on the whole word (R85, R89). -/
def decodeFamily0 (w : Word) : Except DecodeError Instr :=
  if w = 0x00E0 then .ok .cls
  else if w = 0x00EE then .ok .ret
  else .error (.unknownOpcode w)

/-- Family 8 dispatches on n (R85, R87). -/
def decodeFamily8 (w : Word) : Except DecodeError Instr :=
  match field w 3 0 with
  | 0x0 => .ok (.ldReg (xOf w) (yOf w))
  | 0x1 => .ok (.orReg (xOf w) (yOf w))
  | 0x2 => .ok (.andReg (xOf w) (yOf w))
  | 0x3 => .ok (.xorReg (xOf w) (yOf w))
  | 0x4 => .ok (.addReg (xOf w) (yOf w))
  | 0x5 => .ok (.sub (xOf w) (yOf w))
  | 0x6 => .ok (.shr (xOf w) (yNibbleOf w))
  | 0x7 => .ok (.subn (xOf w) (yOf w))
  | 0xE => .ok (.shl (xOf w) (yNibbleOf w))
  | _ => .error (.unknownOpcode w)

/-- Family E dispatches on nn (R85, R87). -/
def decodeFamilyE (w : Word) : Except DecodeError Instr :=
  match field w 7 0 with
  | 0x9E => .ok (.skp (xOf w))
  | 0xA1 => .ok (.sknp (xOf w))
  | _ => .error (.unknownOpcode w)

/-- Family F dispatches on nn (R85, R87). -/
def decodeFamilyF (w : Word) : Except DecodeError Instr :=
  match field w 7 0 with
  | 0x07 => .ok (.ldVxDt (xOf w))
  | 0x0A => .ok (.ldVxK (xOf w))
  | 0x15 => .ok (.ldDtVx (xOf w))
  | 0x18 => .ok (.ldStVx (xOf w))
  | 0x1E => .ok (.addI (xOf w))
  | 0x29 => .ok (.ldF (xOf w))
  | 0x33 => .ok (.ldB (xOf w))
  | 0x55 => .ok (.stRegs (xOf w))
  | 0x65 => .ok (.ldRegs (xOf w))
  | _ => .error (.unknownOpcode w)

/-- `decode` of R87, a total function on every 16-bit word. A family has 4 bits, so the last arm is family F. -/
def decodeWord (w : Word) : Except DecodeError Instr :=
  match familyOf w with
  | 0x0 => decodeFamily0 w
  | 0x1 => .ok (.jp (nnnOf w))
  | 0x2 => .ok (.call (nnnOf w))
  | 0x3 => .ok (.seImm (xOf w) (nnOf w))
  | 0x4 => .ok (.sneImm (xOf w) (nnOf w))
  | 0x5 => .ok (.seReg (xOf w) (yOf w) (nOf w))
  | 0x6 => .ok (.ldImm (xOf w) (nnOf w))
  | 0x7 => .ok (.addImm (xOf w) (nnOf w))
  | 0x8 => decodeFamily8 w
  | 0x9 => .ok (.sneReg (xOf w) (yOf w) (nOf w))
  | 0xA => .ok (.ldI (nnnOf w))
  | 0xB => .ok (.jpV0 (nnnOf w))
  | 0xC => .ok (.rnd (xOf w) (nnOf w))
  | 0xD => .ok (.drw (xOf w) (yOf w) (nOf w))
  | 0xE => decodeFamilyE w
  | _ => decodeFamilyF w

/-- An instruction word is big-endian: the byte at pc is the high byte (R63, R80). -/
def wordOfBytes (high low : Byte) : Word := BitVec.ofNat 16 (high.toNat * 256 + low.toNat)

/-- The high byte of a word, which stands at the lower address (R63). -/
def highByte (w : Word) : Byte := BitVec.ofNat 8 (w.toNat / 256)

/-- The low byte of a word, which stands at the higher address (R63). -/
def lowByte (w : Word) : Byte := BitVec.ofNat 8 (w.toNat % 256)

/-- Decoding a list of bytes: exactly two are consumed (R80) and the rest is answered beside the instruction. -/
def decodeBytes : List Byte → Except DecodeError (Instr × List Byte)
  | high :: low :: rest =>
    match decodeWord (wordOfBytes high low) with
    | .ok i => .ok (i, rest)
    | .error e => .error e
  | _ => .error .truncated

/-- The word whose bits are `w` in a row of `nbits` bits: the bits above `nbits` are 0, and a word has 16 bits (R80). -/
def tableWord (nbits w : Nat) : Word := BitVec.ofNat 16 (w % 2 ^ nbits)

/-- What the decoder reads from an instruction whose bits are `w` as spec/opcode_table.json numbers them: its word laid
out big-endian (R63), decoded as bytes. -/
def decodeTableWord (nbits w : Nat) : Option Instr :=
  match decodeBytes [highByte (tableWord nbits w), lowByte (tableWord nbits w)] with
  | .ok (i, _) => some i
  | .error _ => none

/-- Format NNN of R84. -/
def encodeNNN (family : Nat) (nnn : Addr) : Word := BitVec.ofNat 16 (family * 4096 + nnn.toNat)

/-- Format XNN of R84, and format X, whose low byte is a sub-opcode. -/
def encodeXNN (family : Nat) (x : Reg) (nn : Byte) : Word := BitVec.ofNat 16 (family * 4096 + x.val * 256 + nn.toNat)

/-- Formats XY and XYN of R84: the three low nibbles are x, y and n (or a sub-opcode, or ignored). -/
def encodeXYN (family : Nat) (x y n : Nat) : Word := BitVec.ofNat 16 (family * 4096 + x * 256 + y * 16 + n)

/-- The word of an instruction (R84, R86). -/
def encode : Instr → Word
  | .cls => 0x00E0
  | .ret => 0x00EE
  | .jp nnn => encodeNNN 0x1 nnn
  | .call nnn => encodeNNN 0x2 nnn
  | .seImm x nn => encodeXNN 0x3 x nn
  | .sneImm x nn => encodeXNN 0x4 x nn
  | .seReg x y ign => encodeXYN 0x5 x y ign.toNat
  | .ldImm x nn => encodeXNN 0x6 x nn
  | .addImm x nn => encodeXNN 0x7 x nn
  | .ldReg x y => encodeXYN 0x8 x y 0x0
  | .orReg x y => encodeXYN 0x8 x y 0x1
  | .andReg x y => encodeXYN 0x8 x y 0x2
  | .xorReg x y => encodeXYN 0x8 x y 0x3
  | .addReg x y => encodeXYN 0x8 x y 0x4
  | .sub x y => encodeXYN 0x8 x y 0x5
  | .shr x ign => encodeXYN 0x8 x ign.toNat 0x6
  | .subn x y => encodeXYN 0x8 x y 0x7
  | .shl x ign => encodeXYN 0x8 x ign.toNat 0xE
  | .sneReg x y ign => encodeXYN 0x9 x y ign.toNat
  | .ldI nnn => encodeNNN 0xA nnn
  | .jpV0 nnn => encodeNNN 0xB nnn
  | .rnd x nn => encodeXNN 0xC x nn
  | .drw x y n => encodeXYN 0xD x y n.toNat
  | .skp x => encodeXNN 0xE x 0x9E
  | .sknp x => encodeXNN 0xE x 0xA1
  | .ldVxDt x => encodeXNN 0xF x 0x07
  | .ldVxK x => encodeXNN 0xF x 0x0A
  | .ldDtVx x => encodeXNN 0xF x 0x15
  | .ldStVx x => encodeXNN 0xF x 0x18
  | .addI x => encodeXNN 0xF x 0x1E
  | .ldF x => encodeXNN 0xF x 0x29
  | .ldB x => encodeXNN 0xF x 0x33
  | .stRegs x => encodeXNN 0xF x 0x55
  | .ldRegs x => encodeXNN 0xF x 0x65

end Sys2Proof
end

