-- ==== Sys2Proof/Config.lean ====
section
/-! DEFINITION. What the spec leaves to the host or to the implementation (00_scope.md R8). The two values nothing
fixes, `rnd` and `fx0a_select`, are opaque: no proof can see what they are, so a claim holds for every choice. The two
parameters with a default in the spec, FONTSET and SYS_POLICY, are arguments that a machine carries in its state
(`State.params`, log 29), so a claim about every state holds for every value of them; their defaults are in
Machine/Params.lean. -/

namespace Sys2Proof

/-- SYS_POLICY (R8, R89, D5): what a family-0 word other than 00E0 and 00EE does. -/
inductive SysPolicy where
  /-- It raises UnknownOpcode: the spec's default. -/
  | fault
  /-- It advances pc by 2 and does nothing else: the alternative a model may select. -/
  | nop
deriving DecidableEq, Repr

/-- The parameters of R8 that have a default, the arguments of a machine. -/
structure Params where
  /-- FONTSET (R301, D18): 16 glyphs of 5 bytes. -/
  fontset : Vector Byte 80
  /-- SYS_POLICY (R89, D5). -/
  sysPolicy : SysPolicy
deriving DecidableEq, Repr

/-- The byte `rnd` that the host supplies to the k-th completed cycle (R190, D16): a free value (log 4). There is
one sequence for all instances and runs, the model's choice (log 4). -/
opaque Config.rnd : Nat → Byte

/-- The choice behind `fx0a_select` (R224, D15): a free value of the key vector, one function for all
instances (log 5). `Machine.selectKey` reduces it
to one of the pressed keys, the one limit the spec sets. -/
opaque Config.fx0aChoice : Vector Bool 16 → Nat

end Sys2Proof
end

