-- ==== Sys2Proof/Machine/Params.lean ====
section
/-! DEFINITION. The defaults of the parameters FONTSET and SYS_POLICY (R8). -/

namespace Sys2Proof.Machine

/-- Glyphs 0 to 7 of the default FONTSET (R301). -/
def glyphs0to7 : List Byte :=
  [0xF0, 0x90, 0x90, 0x90, 0xF0, 0x20, 0x60, 0x20, 0x20, 0x70, 0xF0, 0x10, 0xF0, 0x80, 0xF0, 0xF0, 0x10, 0xF0, 0x10, 0xF0,
   0x90, 0x90, 0xF0, 0x10, 0x10, 0xF0, 0x80, 0xF0, 0x10, 0xF0, 0xF0, 0x80, 0xF0, 0x90, 0xF0, 0xF0, 0x10, 0x20, 0x40, 0x40]

/-- Glyphs 8 to F of the default FONTSET (R301). -/
def glyphs8toF : List Byte :=
  [0xF0, 0x90, 0xF0, 0x90, 0xF0, 0xF0, 0x90, 0xF0, 0x10, 0xF0, 0xF0, 0x90, 0xF0, 0x90, 0x90, 0xE0, 0x90, 0xE0, 0x90, 0xE0,
   0xF0, 0x80, 0x80, 0x80, 0xF0, 0xE0, 0x90, 0x90, 0x90, 0xE0, 0xF0, 0x80, 0xF0, 0x80, 0xF0, 0xF0, 0x80, 0xF0, 0x80, 0x80]

/-- The default of FONTSET (R301, D18), 16 glyphs of 5 bytes (log 2). -/
def fontset : Vector Byte 80 := ⟨(glyphs0to7 ++ glyphs8toF).toArray, rfl⟩

/-- The default of SYS_POLICY (R89, D5; log 3). -/
def sysPolicy : SysPolicy := .fault

/-- The parameters at their defaults. -/
def defaultParams : Params := ⟨fontset, sysPolicy⟩

end Sys2Proof.Machine
end

