-- ==== Sys2Proof/Machine/State.lean ====
section
/-! DEFINITION. The machine state as plain data (10_state.md): the twelve elements of the spec's record, and three
fields of the model's own (`params`, `phase`, `cycle`). -/

namespace Sys2Proof.Machine

/-- The six fault kinds of R261. -/
inductive FaultKind where
  | unknownOpcode
  | fetchOutOfRange
  | memOutOfRange
  | stackOverflow
  | stackUnderflow
  | keyIndexOutOfRange
deriving DecidableEq, Repr

/-- A FaultRecord (R261). Its code is a function of the kind (`faultCode` in Machine/Ops.lean), so it is not stored twice
(log 19). `opcode` is absent for FetchOutOfRange; `addr` is absent where the kind has none. -/
structure FaultRecord where
  kind : FaultKind
  pc : Word
  opcode : Option Word
  addr : Option Nat
deriving DecidableEq, Repr

/-- Why a program load failed (R303). -/
inductive LoadError where
  /-- The image has this many bytes, more than 3584. -/
  | tooLarge (length : Nat)
  /-- The byte source could not be read. -/
  | readError
deriving DecidableEq, Repr

/-- The run status (R33). -/
inductive Status where
  /-- Cycles may run. -/
  | running
  /-- A cycle raised a fault; final until Init. -/
  | faulted (r : FaultRecord)
  /-- The program load failed; final until Init. -/
  | loadFailed (e : LoadError)
deriving DecidableEq, Repr

/-- Where the boot order of R304 stands. The model's own bookkeeping, so that a load the interface does not allow can be
refused (R302, U17; log 17). -/
inductive Phase where
  /-- Init has run, and neither a load nor a cycle since. -/
  | fresh
  /-- A program was loaded, and no cycle has completed since. -/
  | loaded
  /-- At least one cycle has completed. -/
  | stepped
deriving DecidableEq, Repr

structure State where
  /-- Memory (R20): the cells whose byte differs from the reset contents, addresses strictly rising. -/
  mem : List Host.Cell
  /-- V0..VF (R21); VF is also the flag register (R22). -/
  V : Vector Byte 16
  /-- The address register (R24): a 16-bit container whose writes are masked to 12 bits. -/
  I : Word
  /-- The program counter (R25). -/
  pc : Word
  /-- The return stack (R27). -/
  stack : Vector Word 16
  /-- The stack pointer, 0..16 (R28). -/
  sp : Fin 17
  /-- The delay timer (R29). -/
  DT : Byte
  /-- The sound timer (R29). -/
  ST : Byte
  /-- The key vector (R30). -/
  keys : Vector Bool 16
  /-- The framebuffer (R31): 32 rows of 64 pixels; bit x of row y is the pixel at column x, that is fb[y*64 + x]. -/
  fb : Vector (BitVec 64) 32
  /-- The redraw flag (R32). -/
  redraw : Bool
  /-- The run status (R33). -/
  status : Status
  /-- The model's own: the parameters of R8 this machine is given. Nothing changes them, Init included (log 29). -/
  params : Params
  /-- The model's own: where the boot order stands (log 17). -/
  phase : Phase
  /-- The model's own: how many cycles have completed; the index of the next `Config.rnd` byte (log 4). -/
  cycle : Nat
deriving DecidableEq, Repr

/-- No step stops with a fault: the spec gives every fault of this machine an effect, `status := Faulted` on the state
from before the fetch (R260), and that effect is a next state (log 1). So this type has no constructor, and nobody
raises one: safe. -/
inductive Fault where
deriving DecidableEq, Repr

/-- Why the model refuses. -/
inductive Refusal where
  /-- Raised by `exec` for an instruction that has no meaning yet (none in this model): safe, the machine stops. -/
  | notModelled (mnemonic : String)
  /-- Raised by the host action LoadProgram when a load has been made since Init, a cycle has completed, or the status is
  not Running: the spec puts such a load outside the interface and has the model refuse it (R302, U17). Safe. -/
  | loadOutsideInterface
deriving DecidableEq, Repr

/-- The state that initialisation produces (R40 to R49) on a machine with parameters `p`. No cell is listed, so memory
reads as its reset contents: the font at 0x50 and 0 elsewhere (R40, R301). -/
def State.resetWith (p : Params) : State where
  mem := []
  V := Vector.replicate 16 0
  I := 0
  pc := 0x200
  stack := Vector.replicate 16 0
  sp := 0
  DT := 0
  ST := 0
  keys := Vector.replicate 16 false
  fb := Vector.replicate 32 0
  redraw := false
  status := .running
  params := p
  phase := .fresh
  cycle := 0

/-- The state right after reset, with the parameters at their defaults. -/
def State.reset : State := State.resetWith defaultParams

end Sys2Proof.Machine
end

