-- ==== Sys2Proof/Machine/Memory.lean ====
section
/-! DEFINITION. Memory (20_memory.md): 4096 bytes, held as the cells that differ from the reset contents. -/

namespace Sys2Proof.Machine

/-- MEM_SIZE (R7, R20). -/
def memSize : Nat := 4096

/-- FONT_BASE (R7, R301). -/
def fontBase : Nat := 0x50

/-- PROG_BASE (R7, R302). -/
def progBase : Nat := 0x200

/-- What an unlisted address reads as: the contents memory has after Init, the font at 0x50..0x9F and 0 elsewhere (R40,
R61, R301). -/
def resetByte (font : Vector Byte 80) (a : Nat) : Byte :=
  if h : fontBase ≤ a ∧ a < fontBase + 80 then font.get ⟨a - fontBase, by omega⟩ else 0

/-- One byte of a cell list. -/
def readCells (font : Vector Byte 80) : List Host.Cell → Nat → Byte
  | [], a => resetByte font a
  | (b, v) :: rest, a => if a = b then v else readCells font rest a

/-- Writing a byte that differs from the reset contents: its cell, in its place in rising order. -/
def insertCell (a : Nat) (v : Byte) : List Host.Cell → List Host.Cell
  | [] => [(a, v)]
  | (b, w) :: rest =>
    if a < b then (a, v) :: (b, w) :: rest
    else if a = b then (a, v) :: rest
    else (b, w) :: insertCell a v rest

/-- Writing one byte, keeping the canonical form: writing what an unlisted address reads as removes the entry. -/
def writeCells (font : Vector Byte 80) (cells : List Host.Cell) (a : Nat) (v : Byte) : List Host.Cell :=
  if v = resetByte font a then cells.filter (fun c => c.1 ≠ a) else insertCell a v cells

/-- The canonical form of memory: addresses strictly rising and inside memory, and no entry equal to what its address
reads as unlisted. -/
def Memory.wf (font : Vector Byte 80) (cells : List Host.Cell) : Bool :=
  decide (cells.Pairwise (fun c d => c.1 < d.1)) &&
    cells.all (fun c => decide (c.1 < memSize) && decide (c.2 ≠ resetByte font c.1))

/-- `MemRead(a, 1)` (R11, R64). An instruction calls it only for addresses its own check has found inside memory. -/
def State.read (s : State) (a : Nat) : Byte := readCells s.params.fontset s.mem a

/-- `MemWrite(a, 1, v)` (R11, R64), for addresses inside memory; at any other address nothing is written (R67). -/
def State.write (s : State) (a : Nat) (v : Byte) : State :=
  if a < memSize then { s with mem := writeCells s.params.fontset s.mem a v } else s

/-- One-byte writes of `bytes` at `a`, `a + 1`, … in ascending order (R63, R65). -/
def State.writeBytes (s : State) (a : Nat) : List Byte → State
  | [] => s
  | v :: rest => (s.write a v).writeBytes (a + 1) rest

/-- One-byte reads of `n` bytes at `a`, `a + 1`, … in ascending order (R63, R65). -/
def State.readBytes (s : State) (a : Nat) : Nat → List Byte
  | 0 => []
  | n + 1 => s.read a :: s.readBytes (a + 1) n

/-- The bounds check of a data access to the `n` addresses `a`, …, `a + n - 1`, on naturals and not wrapped (R68): the
lowest address outside memory, or none when all are inside. -/
def lowestOutOfRange (a n : Nat) : Option Nat :=
  if n = 0 ∨ a + n ≤ memSize then none else some (max a memSize)

/-- Fetch (R80, R81): the big-endian word at pc, or the address that lies outside memory. -/
def fetch (s : State) : Except Nat Word :=
  if s.pc.toNat ≤ 0xFFE then .ok (wordOfBytes (s.read s.pc.toNat) (s.read (s.pc.toNat + 1)))
  else .error (if s.pc.toNat > 0xFFF then s.pc.toNat else 0x1000)

end Sys2Proof.Machine
end

