-- ==== Sys2Proof/Machine/Operands.lean ====
section
/-! DEFINITION. The operand forms (30_encoding.md R82, R83; 44_memory_address.md): registers, immediates, key indices,
the glyph address and the decimal digits. Every value is unsigned; nothing is sign-extended, scaled or shifted. -/

namespace Sys2Proof.Machine

/-- VF, the register that is also the flag register (R22). -/
def vf : Reg := 15

/-- `V[x]`. -/
def State.v (s : State) (x : Reg) : Byte := s.V.get x

/-- `V[x] <- b`: any of the sixteen registers; none is hardwired (R21). -/
def State.setV (s : State) (x : Reg) (b : Byte) : State := { s with V := s.V.set x.val b x.isLt }

/-- The flag, then the result (R159, C2): with x = 15, VF ends holding the result. -/
def State.setFlagThenV (s : State) (flag : Byte) (x : Reg) (result : Byte) : State := (s.setV vf flag).setV x result

/-- `I <- v`: every write to I is masked to 12 bits (R24, D9). -/
def State.setI (s : State) (v : Nat) : State := { s with I := BitVec.ofNat 16 (v % 0x1000) }

/-- The address nnn as a pc value: zero-extended (R83). -/
def targetOf (nnn : Addr) : Word := BitVec.ofNat 16 nnn.toNat

/-- `nnn + V0` of BNNN, not wrapped at 12 bits (R83, R124). -/
def offsetTarget (nnn : Addr) (v0 : Byte) : Word := BitVec.ofNat 16 (nnn.toNat + v0.toNat)

/-- The glyph address of FX29: the low nibble of the register only (R202). -/
def glyphAddress (vx : Byte) : Nat := fontBase + 5 * (vx.toNat % 16)

/-- The three digits FX33 stores, hundreds first (R63, R203). -/
def decimalDigits (vx : Byte) : List Byte :=
  [BitVec.ofNat 8 (vx.toNat / 100), BitVec.ofNat 8 (vx.toNat / 10 % 10), BitVec.ofNat 8 (vx.toNat % 10)]

/-- The registers `V[i]`, …, `V[i + n - 1]` in ascending order. -/
def State.regsFrom (s : State) (i : Nat) : Nat → List Byte
  | 0 => []
  | n + 1 => s.v (Fin.ofNat 16 i) :: s.regsFrom (i + 1) n

/-- The bytes FX55 stores: V0..Vx inclusive (R204). -/
def State.regsUpTo (s : State) (x : Reg) : List Byte := s.regsFrom 0 (x.val + 1)

/-- Loading a list of bytes into `V[i]`, `V[i + 1]`, … in ascending order (R205). -/
def State.loadRegsFrom (s : State) (i : Nat) : List Byte → State
  | [] => s
  | b :: rest => (s.setV (Fin.ofNat 16 i) b).loadRegsFrom (i + 1) rest

/-- The key index in a register, not masked: none when it is above 15 (R144, R265, D14). -/
def keyIndex (vx : Byte) : Option (Fin 16) := if h : vx.toNat < 16 then some ⟨vx.toNat, h⟩ else none

/-- `keys[k]`. -/
def State.key (s : State) (k : Fin 16) : Bool := s.keys.get k

/-- The pressed keys, in rising order. -/
def pressedKeys (keys : Vector Bool 16) : List (Fin 16) := (List.finRange 16).filter (fun k => keys.get k)

/-- `fx0a_select` (R224): some pressed key, or none when no key is pressed. Which one is free: the i-th pressed key for an
index i that `Config.fx0aChoice` leaves open (log 5). -/
def selectKey (keys : Vector Bool 16) : Option (Fin 16) :=
  (pressedKeys keys)[Config.fx0aChoice keys % (pressedKeys keys).length]?

/-- The byte `rnd` of this cycle (R190): free (log 4). DESIGN CHOICE, unsafe: two instances or runs with equal `cycle`
receive the same byte, where R190 leaves each byte a free input of its own cycle and R285 shares nothing (log 4). -/
def State.rndByte (s : State) : Byte := Config.rnd s.cycle

end Sys2Proof.Machine
end

