-- ==== Sys2Proof/Machine/Ops.lean ====
section
/-! DEFINITION. The shared operations of the instruction cycle: setting pc, raising a fault, the timer tick, the end of a
cycle. -/

namespace Sys2Proof.Machine

/-- What a step answers. -/
abbrev Result := Host.Outcome State Fault Refusal

/-- The numeric cause codes of R261. -/
def faultCode : FaultKind → Nat
  | .unknownOpcode => 1
  | .fetchOutOfRange => 2
  | .memOutOfRange => 3
  | .stackOverflow => 4
  | .stackUnderflow => 5
  | .keyIndexOutOfRange => 6

/-- The `code` field of a FaultRecord (R261). -/
def FaultRecord.code (r : FaultRecord) : Nat := faultCode r.kind

/-- `raise F(info)` (R260, R268): status becomes Faulted with the record, and nothing else changes. Every check stands
before the first write of its rule (R12), so `s` is the state from before the fetch. There is no handler, nothing is
saved elsewhere, and there is no return: only Init leaves Faulted (R33, R268). -/
def raise (kind : FaultKind) (opcode : Option Word) (addr : Option Nat) (s : State) : Result :=
  .next { s with status := .faulted ⟨kind, s.pc, opcode, addr⟩ }

/-- The data-access check (R67, R68, R263): raise MemOutOfRange with the lowest out-of-range address when one of the `n`
addresses from I lies outside memory, else go on. -/
def withAccess (i : Instr) (n : Nat) (s : State) (go : Result) : Result :=
  match lowestOutOfRange s.I.toNat n with
  | some a => raise .memOutOfRange (some (encode i)) (some a) s
  | none => go

/-- `pc <- target` (R11). -/
def State.setPc (s : State) (target : Word) : State := { s with pc := target }

/-- `pc <- trunc16(pc + n)` (R25, R26). -/
def State.advance (s : State) (n : Nat) : State := { s with pc := BitVec.ofNat 16 (s.pc.toNat + n) }

/-- A completed instruction that falls through: pc + 2 (R26). -/
def done (s : State) : Result := .next (s.advance 2)

/-- A skip: pc + 4 when the condition holds, else pc + 2, and nothing else (R26, 41_conditional_skip.md). -/
def skipIf (condition : Bool) (s : State) : Result := .next (s.advance (if condition then 4 else 2))

/-- An illegal word (R90): UnknownOpcode with the opcode and pc (R261); under `SYS_POLICY = nop` a family-0 word is pc + 2
and nothing else (D5; log 3, log 28). -/
def unknownWord (w : Word) (s : State) : Result :=
  if s.params.sysPolicy = .nop ∧ familyOf w = 0 then done s else raise .unknownOpcode (some w) none s

/-- One timer's decrement: a timer at 0 stays at 0 (R280). -/
def tickDown (t : Byte) : Byte := if t.toNat > 0 then t - 1 else t

/-- The timer tick (R280). -/
def State.tick (s : State) : State := { s with ST := tickDown s.ST, DT := tickDown s.DT }

/-- The end of a completed cycle: the tick (R93 step 4), and the model's own bookkeeping. -/
def State.endCycle (s : State) : State := { s.tick with phase := .stepped, cycle := s.cycle + 1 }

/-- After execution: a cycle that raised ends as it is, with no tick (R94, R280, C9); one that completed gets its tick. -/
def finish : Result → Result
  | .next s => if s.status = .running then .next s.endCycle else .next s
  | .fault r => .fault r
  | .refused r => .refused r

/-- The sound-active output (R283). -/
def State.soundActive (s : State) : Bool := decide (s.ST.toNat > 0)

end Sys2Proof.Machine
end

