-- ==== Sys2Proof/Machine/Arith.lean ====
section
/-! DEFINITION. Immediate and register arithmetic (42_register_arithmetic.md R158 to R170). `Byte` arithmetic wraps
modulo 256, which is the trunc8 of the rules; operands are read from the state before either write (R159). -/

namespace Sys2Proof.Machine

/-- `V[x] <- b` and pc + 2, with no flag. -/
def setReg (x : Reg) (b : Byte) (s : State) : Result := done (s.setV x b)

/-- The flag, then the result (R159), and pc + 2. -/
def setFlagAndReg (flag : Byte) (x : Reg) (b : Byte) (s : State) : Result := done (s.setFlagThenV flag x b)

/-- 6XNN LD Vx, nn (R160). -/
def execLdImm (x : Reg) (nn : Byte) (s : State) : Result := setReg x nn s

/-- 7XNN ADD Vx, nn (R161): wraps, no flag. -/
def execAddImm (x : Reg) (nn : Byte) (s : State) : Result := setReg x (s.v x + nn) s

/-- 8XY0 LD Vx, Vy (R162). -/
def execLdReg (x y : Reg) (s : State) : Result := setReg x (s.v y) s

/-- 8XY1 OR Vx, Vy (R163). -/
def execOrReg (x y : Reg) (s : State) : Result := setReg x (s.v x ||| s.v y) s

/-- 8XY2 AND Vx, Vy (R164). -/
def execAndReg (x y : Reg) (s : State) : Result := setReg x (s.v x &&& s.v y) s

/-- 8XY3 XOR Vx, Vy (R165). -/
def execXorReg (x y : Reg) (s : State) : Result := setReg x (s.v x ^^^ s.v y) s

/-- 8XY4 ADD Vx, Vy (R166). -/
def execAddReg (x y : Reg) (s : State) : Result := setFlagAndReg (carryFlag (s.v x) (s.v y)) x (s.v x + s.v y) s

/-- 8XY5 SUB Vx, Vy (R167). -/
def execSub (x y : Reg) (s : State) : Result := setFlagAndReg (noBorrowFlag (s.v x) (s.v y)) x (s.v x - s.v y) s

/-- 8XY6 SHR Vx (R168): the source is Vx; y is ignored. -/
def execShr (x : Reg) (s : State) : Result := setFlagAndReg (shiftRightFlag (s.v x)) x (s.v x >>> 1) s

/-- 8XY7 SUBN Vx, Vy (R169): Vy - Vx into Vx. -/
def execSubn (x y : Reg) (s : State) : Result := setFlagAndReg (noBorrowFlag (s.v y) (s.v x)) x (s.v y - s.v x) s

/-- 8XYE SHL Vx (R170): the flag is the raw bit 7; y is ignored. -/
def execShl (x : Reg) (s : State) : Result := setFlagAndReg (shiftLeftFlag (s.v x)) x (s.v x <<< 1) s

end Sys2Proof.Machine
end

