-- ==== Sys2Proof/Machine/Control.lean ====
section
/-! DEFINITION. Control flow (40_control_flow.md R120 to R124). -/

namespace Sys2Proof.Machine

/-- 00E0 CLS (R120): every pixel becomes 0, and redraw is set even when the screen was clear. -/
def execCls (s : State) : Result := done { s with fb := Vector.replicate 32 0, redraw := true }

/-- 00EE RET (R121): StackUnderflow when the stack is empty, else sp - 1 and pc two bytes after the stored address. The
popped entry keeps its value (R27). -/
def execRet (s : State) : Result :=
  match s.sp with
  | ⟨0, _⟩ => raise .stackUnderflow (some (encode .ret)) none s
  | ⟨n + 1, h⟩ =>
    let top : Fin 16 := ⟨n, Nat.lt_of_succ_lt_succ h⟩
    .next { s with sp := top.castSucc, pc := BitVec.ofNat 16 ((s.stack.get top).toNat + 2) }

/-- 1NNN JP nnn (R122). -/
def execJp (nnn : Addr) (s : State) : Result := .next (s.setPc (targetOf nnn))

/-- 2NNN CALL nnn (R123): StackOverflow when all 16 entries are in use, else push the CALL's own address and jump. -/
def execCall (nnn : Addr) (s : State) : Result :=
  if h : s.sp.val < 16 then
    .next { s with stack := s.stack.set s.sp.val s.pc h, sp := ⟨s.sp.val + 1, Nat.succ_lt_succ h⟩, pc := targetOf nnn }
  else raise .stackOverflow (some (encode (.call nnn))) none s

/-- BNNN JP V0, nnn (R124): always V0; the sum is not wrapped at 12 bits. -/
def execJpV0 (nnn : Addr) (s : State) : Result := .next (s.setPc (offsetTarget nnn (s.v 0)))

end Sys2Proof.Machine
end

