-- ==== Sys2Proof/Machine/Draw.lean ====
section
/-! DEFINITION. Draw and the framebuffer controller (46_draw.md R240 to R244). -/

namespace Sys2Proof.Machine

abbrev Framebuffer := Vector (BitVec 64) 32

/-- The screen column of sprite column c: wraps modulo 64 (R242). -/
def columnOf (vx : Byte) (c : Nat) : Fin 64 := Fin.ofNat 64 (vx.toNat + c)

/-- The screen row of sprite row r: wraps modulo 32 (R242). -/
def rowOf (vy : Byte) (r : Nat) : Fin 32 := Fin.ofNat 32 (vy.toNat + r)

/-- The pixel at column `x` and row `y` (R31). -/
def pixelAt (fb : Framebuffer) (x : Fin 64) (y : Fin 32) : Bool := (fb.get y).getLsbD x.val

/-- One pixel toggled by XOR (R31, R240). -/
def togglePixel (fb : Framebuffer) (x : Fin 64) (y : Fin 32) : Framebuffer :=
  fb.set y.val (fb.get y ^^^ BitVec.twoPow 64 x.val) y.isLt

/-- Column `c` of a sprite byte: bit 7 is column 0, the leftmost (R241, D19). -/
def spriteBit (b : Byte) (c : Nat) : Bool := b.getLsbD (7 - c)

/-- The inner statement of R240: a set sprite bit toggles its pixel, and records a collision when the pixel was set. -/
def drawBit (vx vy : Byte) (r : Nat) (b : Byte) (acc : Framebuffer × Bool) (c : Nat) : Framebuffer × Bool :=
  if spriteBit b c then
    (togglePixel acc.1 (columnOf vx c) (rowOf vy r), acc.2 || pixelAt acc.1 (columnOf vx c) (rowOf vy r))
  else acc

/-- One sprite row, columns 0 to 7 (R240). -/
def drawRow (vx vy : Byte) (r : Nat) (b : Byte) (acc : Framebuffer × Bool) : Framebuffer × Bool :=
  (List.range 8).foldl (drawBit vx vy r b) acc

/-- The rows of a sprite from row `r` down (R240, R241): one memory byte each. -/
def drawRows (vx vy : Byte) (r : Nat) (acc : Framebuffer × Bool) : List Byte → Framebuffer × Bool
  | [] => acc
  | b :: rest => drawRows vx vy (r + 1) (drawRow vx vy r b acc) rest

/-- DXYN DRW Vx, Vy, n (R240): VF, written after every pixel, is the collision; redraw is set even when no pixel changed,
and for n = 0 (D20). -/
def execDrw (x y : Reg) (n : Nibble) (s : State) : Result :=
  withAccess (.drw x y n) n.toNat s
    (let drawn := drawRows (s.v x) (s.v y) 0 (s.fb, false) (s.readBytes s.I.toNat n.toNat)
     done ({ s with fb := drawn.1, redraw := true }.setV vf (collisionFlag drawn.2)))

end Sys2Proof.Machine
end

