-- ==== Sys2Proof/Machine/MemoryAddress.lean ====
section
/-! DEFINITION. Memory and address register (44_memory_address.md R200 to R205). -/

namespace Sys2Proof.Machine

/-- ANNN LD I, nnn (R200). -/
def execLdI (nnn : Addr) (s : State) : Result := done (s.setI nnn.toNat)

/-- FX1E ADD I, Vx (R201): wraps at 12 bits, no flag. -/
def execAddI (x : Reg) (s : State) : Result := done (s.setI (s.I.toNat + (s.v x).toNat))

/-- FX29 LD F, Vx (R202). -/
def execLdF (x : Reg) (s : State) : Result := done (s.setI (glyphAddress (s.v x)))

/-- FX33 LD B, Vx (R203): hundreds, tens and units at I, I + 1, I + 2; I is unchanged. -/
def execLdB (x : Reg) (s : State) : Result :=
  withAccess (.ldB x) 3 s (done (s.writeBytes s.I.toNat (decimalDigits (s.v x))))

/-- FX55 LD [I], Vx (R204): stores V0..Vx at I, I + 1, …; I is unchanged. -/
def execStRegs (x : Reg) (s : State) : Result :=
  withAccess (.stRegs x) (x.val + 1) s (done (s.writeBytes s.I.toNat (s.regsUpTo x)))

/-- FX65 LD Vx, [I] (R205): loads V0..Vx from I, I + 1, …; then I advances by x + 1, wrapping at 12 bits. -/
def execLdRegs (x : Reg) (s : State) : Result :=
  withAccess (.ldRegs x) (x.val + 1) s
    (done ((s.loadRegsFrom 0 (s.readBytes s.I.toNat (x.val + 1))).setI (s.I.toNat + x.val + 1)))

end Sys2Proof.Machine
end

