-- ==== Sys2Proof/Machine/Random.lean ====
section
/-! DEFINITION. Random (43_random.md R190, R191). -/

namespace Sys2Proof.Machine

/-- CXNN RND Vx, nn (R191): the cycle's free byte under the mask. -/
def execRnd (x : Reg) (nn : Byte) (s : State) : Result := setReg x (s.rndByte &&& nn) s

end Sys2Proof.Machine
end

