-- ==== Sys2Proof/Machine/Skip.lean ====
section
/-! DEFINITION. Conditional skips (41_conditional_skip.md R140 to R145). The skipped word is never fetched. -/

namespace Sys2Proof.Machine

/-- 3XNN SE Vx, nn (R140). -/
def execSeImm (x : Reg) (nn : Byte) (s : State) : Result := skipIf (s.v x == nn) s

/-- 4XNN SNE Vx, nn (R141). -/
def execSneImm (x : Reg) (nn : Byte) (s : State) : Result := skipIf (s.v x != nn) s

/-- 5XYN SE Vx, Vy (R142): the low nibble is ignored (R88). -/
def execSeReg (x y : Reg) (s : State) : Result := skipIf (s.v x == s.v y) s

/-- 9XYN SNE Vx, Vy (R143): the low nibble is ignored (R88). -/
def execSneReg (x y : Reg) (s : State) : Result := skipIf (s.v x != s.v y) s

/-- The key check shared by EX9E and EXA1 (R144, R145, R265): KeyIndexOutOfRange with the register's value when it is
above 15, else skip when the key is in the wanted position. -/
def skipOnKey (i : Instr) (x : Reg) (wanted : Bool) (s : State) : Result :=
  match keyIndex (s.v x) with
  | some k => skipIf (s.key k == wanted) s
  | none => raise .keyIndexOutOfRange (some (encode i)) (some (s.v x).toNat) s

/-- EX9E SKP Vx (R144). -/
def execSkp (x : Reg) (s : State) : Result := skipOnKey (.skp x) x true s

/-- EXA1 SKNP Vx (R145). -/
def execSknp (x : Reg) (s : State) : Result := skipOnKey (.sknp x) x false s

end Sys2Proof.Machine
end

