-- ==== Sys2Proof/Machine/TimersInput.lean ====
section
/-! DEFINITION. Timers and input (45_timers_input.md R220 to R224). The tick of R280 follows in the same cycle
(`finish`, Machine/Ops.lean). -/

namespace Sys2Proof.Machine

/-- FX07 LD Vx, DT (R220): the value before this cycle's tick. -/
def execLdVxDt (x : Reg) (s : State) : Result := setReg x s.DT s

/-- FX15 LD DT, Vx (R221). -/
def execLdDtVx (x : Reg) (s : State) : Result := done { s with DT := s.v x }

/-- FX18 LD ST, Vx (R222). -/
def execLdStVx (x : Reg) (s : State) : Result := done { s with ST := s.v x }

/-- FX0A LD Vx, K (R223): with no key pressed nothing changes, pc included, and the cycle completes; else Vx is the index
of a pressed key. -/
def execLdVxK (x : Reg) (s : State) : Result :=
  match selectKey s.keys with
  | none => .next s
  | some k => setReg x (BitVec.ofNat 8 k.val) s

end Sys2Proof.Machine
end

