-- ==== Sys2Proof/Machine/Cycle.lean ====
section
/-! DEFINITION. The instruction cycle (30_encoding.md R93): fetch, decode, execute, tick. -/

namespace Sys2Proof.Machine

/-- Steps 2 and 3 of the cycle for a fetched word (R93). -/
def runWord (w : Word) (s : State) : Result :=
  match decodeWord w with
  | .ok i => exec i s
  | .error _ => unknownWord w s

/-- A cycle when Running (R93, R267); no effect otherwise (R290). -/
def instructionCycle (s : State) : Result :=
  if s.status = .running then
    match fetch s with
    | .ok w => finish (runWord w s)
    | .error a => raise .fetchOutOfRange none (some a) s
  else .next s

end Sys2Proof.Machine
end

