-- ==== Sys2Proof/Machine/Step.lean ====
section
/-! DEFINITION. The Step operation, and placing a word where it fetches. -/

namespace Sys2Proof.Machine

/-- The Step operation (R93, R290, R293): one instruction cycle, with the parameters the state carries (R8). -/
def step (s : State) : Host.Outcome State Fault Refusal := instructionCycle s

/-- `s` with the word of a table row at pc, big-endian (R63), so that the next Step fetches it. Outside pc <= 0xFFE there
is no place to fetch from (R81), and nothing changes (log 23). -/
def State.withFetchWord (s : State) (nbits w : Nat) : State :=
  if s.pc.toNat ≤ 0xFFE then
    s.writeBytes s.pc.toNat [highByte (tableWord nbits w), lowByte (tableWord nbits w)]
  else s

end Sys2Proof.Machine
end

