-- ==== Sys2Proof/Machine/HostInterface.lean ====
section
/-! DEFINITION. The host interface (60_exceptions.md R290 to R295; 70_reset_and_hazards.md R300 to R304): the operations
the host performs between cycles, and a run as a list of them. -/

namespace Sys2Proof.Machine

/-- What LoadProgram is given: a byte sequence, or a source that cannot be read (R290, R303). -/
inductive Image where
  | bytes (b : List Byte)
  | readFailure
deriving DecidableEq, Repr

/-- The operations of R290 that may change the state. -/
inductive HostAction where
  | init
  | loadProgram (image : Image)
  | setKeys (keys : Vector Bool 16)
  | step
  | ackRedraw
deriving DecidableEq, Repr

/-- Init (R300): every element at its reset value, on the same machine, so with the same parameters (log 29). The host's
source of `rnd` bytes is no state of the core (R190) and is not rewound: the index into it is kept (log 4). -/
def State.init (s : State) : State := { State.resetWith s.params with cycle := s.cycle }

/-- A load is allowed once after Init, before the first Step (R302). -/
def State.mayLoad (s : State) : Bool := s.status == .running && s.phase == .fresh

/-- LoadProgram on a state that may load (R302, R303, D22; log 30): the bytes at 0x200, 0x201, … in order, or LoadFailed
and no byte copied. -/
def State.load (s : State) : Image → State
  | .bytes b =>
    if imageFits b then { s.writeBytes progBase b with phase := .loaded }
    else { s with status := .loadFailed (.tooLarge b.length) }
  | .readFailure => { s with status := .loadFailed .readError }

/-- SetKeys (R292): the whole key vector, whatever the status. -/
def State.setKeys (s : State) (keys : Vector Bool 16) : State := { s with keys := keys }

/-- AckRedraw, the "redraw consumed" operation (R291). -/
def State.ackRedraw (s : State) : State := { s with redraw := false }

/-- ReadFramebuffer (R290): bit p of the 2048, p = y*64 + x (R31). -/
def State.framebufferBit (s : State) (p : Fin 2048) : Bool :=
  pixelAt s.fb (Fin.ofNat 64 (p.val % 64)) (Fin.ofNat 32 (p.val / 64))

/-- ReadRedraw (R290). -/
def State.readRedraw (s : State) : Bool := s.redraw

/-- ReadTimers / SoundActive (R283, R290): DT, ST and ST > 0. -/
def State.readTimers (s : State) : Byte × Byte × Bool := (s.DT, s.ST, s.soundActive)

/-- ReadStatus (R290, R294): the status, with the FaultRecord in it. -/
def State.readStatus (s : State) : Status := s.status

/-- One host action (R290). -/
def hostAct (a : HostAction) (s : State) : Result :=
  match a with
  | .init => .next s.init
  | .loadProgram image => if s.mayLoad then .next (s.load image) else .refused .loadOutsideInterface
  | .setKeys keys => .next (s.setKeys keys)
  | .step => step s
  | .ackRedraw => .next s.ackRedraw

/-- A run: host actions one after another (R290, R304), stopping at the first fault or refusal. -/
def hostRun : List HostAction → State → Result
  | [], s => .next s
  | a :: rest, s =>
    match hostAct a s with
    | .next t => hostRun rest t
    | .fault r => .fault r
    | .refused r => .refused r

end Sys2Proof.Machine
end

