-- ==== Sys2Proof/Safety.lean ====
section
/-! DEFINITION. What claims are stated in: the parts of the state and what it means that only some of them change, and
the invariant of the machine. -/

namespace Sys2Proof.Machine

/-- The parts of the state a claim can name, one per register, stack entry, key, pixel and byte of memory. -/
inductive Part where
  | reg (x : Reg)
  | addressReg
  | pc
  | stackEntry (j : Fin 16)
  | sp
  | delayTimer
  | soundTimer
  | key (k : Fin 16)
  | pixel (x : Fin 64) (y : Fin 32)
  | redraw
  | status
  | params
  | phase
  | cycle
  | byte (a : Nat)
deriving DecidableEq, Repr

/-- A part reads the same in two states. -/
def Part.same (s t : State) : Part → Prop
  | .reg x => t.v x = s.v x
  | .addressReg => t.I = s.I
  | .pc => t.pc = s.pc
  | .stackEntry j => t.stack.get j = s.stack.get j
  | .sp => t.sp = s.sp
  | .delayTimer => t.DT = s.DT
  | .soundTimer => t.ST = s.ST
  | .key k => t.key k = s.key k
  | .pixel x y => pixelAt t.fb x y = pixelAt s.fb x y
  | .redraw => t.redraw = s.redraw
  | .status => t.status = s.status
  | .params => t.params = s.params
  | .phase => t.phase = s.phase
  | .cycle => t.cycle = s.cycle
  | .byte a => t.read a = s.read a

/-- The frame of an instruction: every part that is not in `changed` reads as before. -/
def OnlyChanges (s t : State) (changed : Part → Prop) : Prop := ∀ p : Part, ¬ changed p → p.same s t

/-- A set bit of the sprite of DRW Vx, Vy, n lands on the pixel (px, py): bit 7 of a row byte leftmost, row 0 at I, each
axis wrapping by itself (R241, R242). -/
def SpriteHit (s : State) (x y : Reg) (n : Nibble) (px : Fin 64) (py : Fin 32) : Prop :=
  ∃ r c : Nat, r < n.toNat ∧ c ≤ 7 ∧ (s.read (s.I.toNat + r)).getLsbD (7 - c) = true ∧
    px.val = ((s.v x).toNat + c) % 64 ∧ py.val = ((s.v y).toNat + r) % 32

/-- A FaultRecord has the fields the table of R261 gives its kind. -/
def FaultRecord.wf (r : FaultRecord) : Prop :=
  match r.kind with
  | .unknownOpcode => (∃ w, r.opcode = some w ∧ legalWord w = false) ∧ r.addr = none
  | .fetchOutOfRange =>
    r.pc.toNat > 0xFFE ∧ r.opcode = none ∧ r.addr = some (if r.pc.toNat > 0xFFF then r.pc.toNat else 0x1000)
  | .memOutOfRange => r.opcode.isSome = true ∧ r.addr = some 0x1000
  | .stackOverflow => r.opcode.isSome = true ∧ r.addr = none
  | .stackUnderflow => r.opcode.isSome = true ∧ r.addr = none
  | .keyIndexOutOfRange => r.opcode.isSome = true ∧ ∃ k, 16 ≤ k ∧ k ≤ 255 ∧ r.addr = some k

/-- What a status says is true of its state (R33, R260, R303): a fault's record has the pc of the state it left. -/
def statusFits (s : State) : Prop :=
  match s.status with
  | .running => True
  | .faulted r => r.pc = s.pc ∧ r.wf
  | .loadFailed (.tooLarge n) => maxProgram < n ∧ s.phase = .fresh
  | .loadFailed .readError => s.phase = .fresh

/-- The invariant of the machine: memory in canonical form inside 4096 bytes (R20); I in 0..0xFFF (R24); pc in 0..0x10FE
(R26, R34); every stack entry the address of an instruction that was fetched, or 0 (R27); the status fits the state. -/
structure Inv (s : State) : Prop where
  memory : Memory.wf s.params.fontset s.mem = true
  address : s.I.toNat ≤ 0xFFF
  counter : s.pc.toNat ≤ 0x10FE
  entries : ∀ j : Fin 16, (s.stack.get j).toNat ≤ 0xFFE
  fits : statusFits s

/-- A safe run, in the terms claims use: it ended in a next state and the machine has not halted. -/
def SafeEnd (r : Result) : Prop := ∃ t, r = .next t ∧ t.status = .running

end Sys2Proof.Machine
end

