-- ==== Sys2Proof/Certificates/Slice0/Obligations.lean ====
section
/-! DEFINITION. The statements for the provers, from the numbered rules of spec/. Frames are said with `OnlyChanges`
(Safety.lean): every part of the state outside the list reads as before, each byte of memory and each pixel included. -/

open Sys2Proof Sys2Proof.Machine

/-! ## Encoding -/

/-- Decoding the word of an instruction gives the instruction back, with every operand value (30_encoding.md §2, §3).
The opcode map is D3 (log 12). -/
def Obligations.DecodeOfEncodeIsTheInstruction : Prop :=
  ∀ i : Instr, decodeWord (encode i) = .ok i

/-- The other direction: the word of a decoded instruction is the word it was decoded from; no bit is dropped. This
rests on the model's choice to keep the ignored nibbles in the syntax (log 6): R88 itself ignores those bits. -/
def Obligations.EncodeOfDecodeIsTheWord : Prop :=
  ∀ (w : Word) (i : Instr), decodeWord w = .ok i → encode i = w

/-- The decoder and the match and mask rows of opcode_table.json are the same function (30_encoding.md §3): what decodes
matches the row of its instruction, a word decodes exactly when it matches some row, and no word matches two rows. The
opcode map is D3 (log 12). -/
def Obligations.DecoderAgreesWithOpcodeTable : Prop :=
  ∀ w : Word,
    (∀ i, decodeWord w = .ok i → i.row ∈ opcodeTable ∧ w &&& i.row.mask = i.row.pattern) ∧
    ((∃ i, decodeWord w = .ok i) ↔ ∃ r ∈ opcodeTable, w &&& r.mask = r.pattern) ∧
    (∀ r ∈ opcodeTable, ∀ r' ∈ opcodeTable, w &&& r.mask = r.pattern → w &&& r'.mask = r'.pattern → r = r')

/-- The illegal words, family by family (30_encoding.md §4): family 0 but for two words, family 8 with n in 8, 9, A, B,
C, D or F, family E but for two low bytes, family F but for nine; each is rejected by its own name. The opcode map is
D3, family 0 is D5 (log 12, log 3). -/
def Obligations.IllegalWordsAreRejectedByName : Prop :=
  ∀ w : Word, decodeWord w = .error (.unknownOpcode w) ↔
    (w.toNat / 4096 = 0 ∧ w.toNat ≠ 0x00E0 ∧ w.toNat ≠ 0x00EE) ∨
    (w.toNat / 4096 = 8 ∧ w.toNat % 16 ∈ [0x8, 0x9, 0xA, 0xB, 0xC, 0xD, 0xF]) ∨
    (w.toNat / 4096 = 0xE ∧ w.toNat % 256 ∉ [0x9E, 0xA1]) ∨
    (w.toNat / 4096 = 0xF ∧ w.toNat % 256 ∉ [0x07, 0x0A, 0x15, 0x18, 0x1E, 0x29, 0x33, 0x55, 0x65])

/-- R89: in family 0 only 00E0 and 00EE are instructions (the opcode map is D3, log 12); under SYS_POLICY = fault, the
default, every other family-0 word raises UnknownOpcode, and under SYS_POLICY = nop, the alternative of D5, it is pc + 2
and nothing else (log 3, log 28). The policy is the machine's own parameter (log 29). -/
def Obligations.FamilyZeroWords : Prop :=
  ∀ w : Word, w.toNat < 0x1000 →
    (w = 0x00E0 → decodeWord w = .ok .cls) ∧
    (w = 0x00EE → decodeWord w = .ok .ret) ∧
    (w ≠ 0x00E0 → w ≠ 0x00EE → ∀ s : State,
      (s.params.sysPolicy = .fault →
        runWord w s = .next { s with status := .faulted ⟨.unknownOpcode, s.pc, some w, none⟩ }) ∧
      (s.params.sysPolicy = .nop → runWord w s = .next { s with pc := s.pc + 2 }))

/-- Nine words written out from the formats of R84 decode to the instructions of R86, and a tenth, 8008, stands for none
and is rejected by name (R90). The opcode map is D3 (log 12). That 512F is an instruction is D6 (log 13), and that its low
nibble is kept in the syntax is log 6. -/
def Obligations.WrittenWordsDecode : Prop :=
  decodeWord 0b0000000011100000 = .ok .cls ∧
  decodeWord 0b0010001100000000 = .ok (.call 0x300) ∧
  decodeWord 0b0011101000000101 = .ok (.seImm 0xA 0x05) ∧
  decodeWord 0b0101000100101111 = .ok (.seReg 1 2 0xF) ∧
  decodeWord 0b1000001111000111 = .ok (.subn 3 0xC) ∧
  decodeWord 0b1100001100001111 = .ok (.rnd 3 0x0F) ∧
  decodeWord 0b1101000100100101 = .ok (.drw 1 2 5) ∧
  decodeWord 0b1110001110100001 = .ok (.sknp 3) ∧
  decodeWord 0b1111001001100101 = .ok (.ldRegs 2) ∧
  decodeWord 0b1000000000001000 = .error (.unknownOpcode 0x8008)

/-- The ignored nibbles of 5XYN, 9XYN, 8XY6 and 8XYE change nothing (30_encoding.md §3, R88). The decision is D6 (log
13). -/
def Obligations.IgnoredNibblesChangeNothing : Prop :=
  ∀ (x y : Reg) (n : Nibble) (s : State),
    exec (.seReg x y n) s = exec (.seReg x y 0) s ∧ exec (.sneReg x y n) s = exec (.sneReg x y 0) s ∧
    exec (.shr x n) s = exec (.shr x 0) s ∧ exec (.shl x n) s = exec (.shl x 0) s

/-! ## The instruction cycle -/

/-- A step runs the decoded instruction (R93): when the two bytes at pc, the high byte first, decode to `i`, then `exec
i` answers a next state. Where it raised nothing, a Step of a running machine is that state followed by the tick of
each nonzero timer and the model's two bookkeeping fields (log 4, log 17); where it raised, the Step is that state
(R94; log 1, log 22). -/
def Obligations.StepRunsTheDecodedInstruction : Prop :=
  ∀ (s : State) (i : Instr), s.status = .running → s.pc.toNat ≤ 0xFFE →
    decodeBytes [s.read s.pc.toNat, s.read (s.pc.toNat + 1)] = .ok (i, []) →
    ∃ t, exec i s = .next t ∧
      (t.status = .running →
        step s = .next { t with DT := if t.DT = 0 then 0 else t.DT - 1, ST := if t.ST = 0 then 0 else t.ST - 1,
                                phase := .stepped, cycle := t.cycle + 1 }) ∧
      (t.status ≠ .running → step s = .next t)

/-- R81: fetch with pc > 0xFFE raises FetchOutOfRange with pc, or with 0x1000 for pc = 0xFFF, and changes nothing else;
with pc <= 0xFFE no step raises it. -/
def Obligations.FetchOutsideMemoryFaults : Prop :=
  ∀ s : State, s.status = .running →
    (s.pc.toNat > 0xFFF →
      step s = .next { s with status := .faulted ⟨.fetchOutOfRange, s.pc, none, some s.pc.toNat⟩ }) ∧
    (s.pc.toNat = 0xFFF →
      step s = .next { s with status := .faulted ⟨.fetchOutOfRange, s.pc, none, some 0x1000⟩ }) ∧
    (s.pc.toNat ≤ 0xFFE → ∀ t r, step s = .next t → t.status = .faulted r → r.kind ≠ .fetchOutOfRange)

/-- An illegal word at pc (R90, R94, R261): UnknownOpcode with the word and pc; the timers do not tick. In family 0
this takes SYS_POLICY = fault, the default of D5 (log 3). Which words are illegal rests on the opcode map D3 (log 12),
and code 1 is the spec's own choice (R261, D2; log 19). -/
def Obligations.IllegalWordFaultsUnchanged : Prop :=
  ∀ (s : State) (w : Word), s.status = .running → s.pc.toNat ≤ 0xFFE →
    w.toNat = (s.read s.pc.toNat).toNat * 256 + (s.read (s.pc.toNat + 1)).toNat → legalWord w = false →
    (s.params.sysPolicy = .fault ∨ w.toNat > 0xFFF) →
    step s = .next { s with status := .faulted ⟨.unknownOpcode, s.pc, some w, none⟩ } ∧
    FaultRecord.code ⟨.unknownOpcode, s.pc, some w, none⟩ = 1

/-- Faults are precise and final (R260): a Step after which the machine is not Running changed nothing but status, the
record holds the pc of the faulting instruction, and every later Step changes nothing. The rollback of every fault is D2
(log 1, log 22). -/
def Obligations.FaultsArePreciseAndFinal : Prop :=
  ∀ s t : State, s.status = .running → step s = .next t → t.status ≠ .running →
    (∃ r, t = { s with status := .faulted r } ∧ r.pc = s.pc) ∧ ∀ n : Nat, hostRun (List.replicate n .step) t = .next t

/-- R267, with the table of R261: which fault a Step raises, by the first check that fails, and on which instruction,
with its numeric code. The order of the checks is D25; the codes are the spec's own choice (R261, D2; log 19). -/
def Obligations.FaultIsTheFirstFailingCheck : Prop :=
  ∀ (s t : State) (r : FaultRecord), Inv s → s.status = .running → step s = .next t → t.status = .faulted r →
    r.wf ∧
    (r.kind = .fetchOutOfRange ↔ s.pc.toNat > 0xFFE) ∧
    r.code = (match r.kind with
      | .unknownOpcode => 1
      | .fetchOutOfRange => 2
      | .memOutOfRange => 3
      | .stackOverflow => 4
      | .stackUnderflow => 5
      | .keyIndexOutOfRange => 6) ∧
    ∀ w, fetch s = .ok w →
      r.opcode = some w ∧
      (r.kind = .unknownOpcode ↔ legalWord w = false) ∧
      ∀ i, decodeWord w = .ok i →
        match r.kind with
        | .stackOverflow => (∃ nnn, i = .call nnn) ∧ s.sp = 16
        | .stackUnderflow => i = .ret ∧ s.sp = 0
        | .keyIndexOutOfRange => ∃ x, (i = .skp x ∨ i = .sknp x) ∧ (s.v x).toNat > 15 ∧ r.addr = some (s.v x).toNat
        | .memOutOfRange =>
          (∃ x, i = .ldB x ∧ s.I.toNat + 2 > 0xFFF) ∨
          (∃ x, (i = .stRegs x ∨ i = .ldRegs x) ∧ s.I.toNat + x.val > 0xFFF) ∨
          (∃ x y n, i = .drw x y n ∧ 0 < n.toNat ∧ s.I.toNat + n.toNat - 1 > 0xFFF)
        | _ => False

/-- A Step while the machine is not Running has no effect (60_exceptions.md §9; D24, log 1). -/
def Obligations.HaltedStepChangesNothing : Prop :=
  ∀ s : State, s.status ≠ .running → step s = .next s

/-- Every Step of every state answers a next state: nothing the machine can hold stops the model. That a fault is a next
state, and the type Fault empty, is the model's reading of R260 and D2 (log 1). -/
def Obligations.EveryStepAnswersNext : Prop :=
  ∀ s : State, ∃ t, step s = .next t

/-- R280: after every completed cycle each timer that is not 0 has been decremented once, whatever ran (the value just
written, for FX15 and FX18); in a cycle that raises a fault neither changes, for every kind of fault (C9, D2; log 22).
Under SYS_POLICY = nop the cycle of an unknown family-0 word counts as completed, so the timers tick there too: the
model's reading of D5, which says pc + 2 and nothing else (log 28). -/
def Obligations.TimersTickOncePerCompletedCycle : Prop :=
  ∀ s t : State, s.status = .running → step s = .next t →
    (t.status = .running → ∀ w, fetch s = .ok w →
      t.DT.toNat = (match decodeWord w with | .ok (.ldDtVx x) => s.v x | _ => s.DT).toNat - 1 ∧
      t.ST.toNat = (match decodeWord w with | .ok (.ldStVx x) => s.v x | _ => s.ST).toNat - 1) ∧
    (t.status ≠ .running → t.DT = s.DT ∧ t.ST = s.ST)

/-- R26: the pc after a completed cycle, by the instruction, on naturals: none of the values wraps. -/
def Obligations.ProgramCounterAfterCompletedCycle : Prop :=
  ∀ (s t : State) (w : Word) (i : Instr), Inv s → s.status = .running → fetch s = .ok w → decodeWord w = .ok i →
    step s = .next t → t.status = .running →
    match i with
    | .jp nnn | .call nnn => t.pc.toNat = nnn.toNat
    | .jpV0 nnn => t.pc.toNat = nnn.toNat + (s.v 0).toNat
    | .ret => ∃ j : Fin 16, s.sp.val = j.val + 1 ∧ t.pc.toNat = (s.stack.get j).toNat + 2
    | .seImm _ _ | .sneImm _ _ | .seReg _ _ _ | .sneReg _ _ _ | .skp _ | .sknp _ =>
      t.pc.toNat = s.pc.toNat + 2 ∨ t.pc.toNat = s.pc.toNat + 4
    | .ldVxK _ => t.pc.toNat = if ∃ k, s.key k = true then s.pc.toNat + 2 else s.pc.toNat
    | _ => t.pc.toNat = s.pc.toNat + 2

/-! ## Rules about the whole machine -/

/-- No Step writes the keys (R30), and no Step clears the redraw flag (R32). -/
def Obligations.StepNeverWritesKeysNorClearsRedraw : Prop :=
  ∀ s t : State, step s = .next t → t.keys = s.keys ∧ (s.redraw = true → t.redraw = true)

/-- R31, R243: a Step that changes a pixel, or raises the redraw flag, ran CLS or DRW. -/
def Obligations.OnlyClearAndDrawChangeTheScreen : Prop :=
  ∀ s t : State, step s = .next t → (t.fb ≠ s.fb ∨ t.redraw ≠ s.redraw) →
    ∃ w, fetch s = .ok w ∧ (decodeWord w = .ok .cls ∨ ∃ x y n, decodeWord w = .ok (.drw x y n))

/-- 20_memory.md §1: a Step that changes any byte of memory ran FX33 or FX55, and the byte is one of those at I, I + 1,
… that the instruction stores to. -/
def Obligations.OnlyStoresChangeMemory : Prop :=
  ∀ (s t : State) (a : Nat), step s = .next t → t.read a ≠ s.read a →
    ∃ w, fetch s = .ok w ∧
      ((∃ x, decodeWord w = .ok (.ldB x) ∧ s.I.toNat ≤ a ∧ a ≤ s.I.toNat + 2) ∨
        ∃ x, decodeWord w = .ok (.stRegs x) ∧ s.I.toNat ≤ a ∧ a ≤ s.I.toNat + x.val)

/-- R35: only the six flag instructions change VF otherwise than as their destination register: any other one that
changes VF has it as its destination, through x = 15 or the register range of FX65 (that the logic operations keep VF
is D23, log 27). What the six write is said by AddWritesCarryThenSum, SubtractionsWriteNoBorrowThenDifference,
ShiftsWriteTheBitShiftedOut and DrawTogglesTheSpritePixels. -/
def Obligations.OnlySixInstructionsWriteTheFlag : Prop :=
  ∀ (i : Instr) (s t : State), exec i s = .next t → t.v vf ≠ s.v vf →
    match i with
    | .addReg _ _ | .sub _ _ | .shr _ _ | .subn _ _ | .shl _ _ | .drw _ _ _ => True
    | .ldImm x _ | .addImm x _ | .ldReg x _ | .orReg x _ | .andReg x _ | .xorReg x _ | .rnd x _ => x = 15
    | .ldVxDt x | .ldVxK x | .ldRegs x => x = 15
    | _ => False

/-- The random byte reaches the state only through CXNN (R190, D16): a Step that does not run CXNN does the same
whatever byte the cycle receives. The byte is said through the model's own field cycle, the index into the free
sequence (log 4). -/
def Obligations.RandomByteIsUsedOnlyByRnd : Prop :=
  ∀ (s : State) (c : Nat), (∀ w x nn, fetch s = .ok w → decodeWord w ≠ .ok (.rnd x nn)) →
    ∃ t, step s = .next t ∧ step { s with cycle := c } = .next { t with cycle := c + (t.cycle - s.cycle) }

/-- R291: AckRedraw clears the redraw flag and changes nothing else, and the core works the same whether or not the host
acknowledges: with the flag cleared before a Step, the Step does the same to everything but the flag. -/
def Obligations.AcknowledgementDoesNotInfluenceTheCore : Prop :=
  (∀ s : State, ∃ t, hostAct .ackRedraw s = .next t ∧ t.redraw = false ∧ OnlyChanges s t (fun p => p = .redraw)) ∧
  ∀ s t : State, step s = .next t → ∃ u, step s.ackRedraw = .next u ∧ u.ackRedraw = t.ackRedraw

/-! ## Invariants -/

/-- The invariant holds after initialisation, whatever the parameters. That memory, I and the stack are 0 is D17 (log
14). -/
def Obligations.ResetMeetsInv : Prop := Inv State.reset ∧ ∀ p : Params, Inv (State.resetWith p)

/-- Every Step keeps the invariant: memory canonical and inside 4096 bytes, I in 0..0xFFF, pc in 0..0x10FE, stack
entries addresses of fetched instructions, status fitting its state (R20, R24, R26, R27, R33). The range of I is D9 (log
7). -/
def Obligations.StepKeepsInv : Prop :=
  ∀ s t : State, Inv s → step s = .next t → Inv t

/-- Every run of host actions, whatever the host does and in whatever order, keeps the invariant and the parameters (log
29), and is stopped by nothing but a load outside the interface (R290, R302; log 17). -/
def Obligations.HostRunKeepsInv : Prop :=
  ∀ (actions : List HostAction) (s : State), Inv s →
    (∃ t, hostRun actions s = .next t ∧ Inv t ∧ t.params = s.params) ∨
      hostRun actions s = .refused .loadOutsideInterface

/-! ## Control flow -/

/-- R120 CLS, word 00E0. The word is D3 (log 12). -/
def Obligations.ClsClearsTheScreen : Prop :=
  ∀ s : State, encode .cls = 0x00E0 ∧ ∃ t, exec .cls s = .next t ∧
    (∀ x y, pixelAt t.fb x y = false) ∧ t.redraw = true ∧ t.pc = s.pc + 2 ∧
    OnlyChanges s t (fun p => p = .pc ∨ p = .redraw ∨ ∃ x y, p = .pixel x y)

/-- R121 RET, word 00EE: with sp > 0, sp - 1 and pc at the stored address + 2; with sp = 0, StackUnderflow and nothing
else. The word is D3 (log 12), the fault D12 (log 25). -/
def Obligations.RetPopsTheStack : Prop :=
  ∀ s : State, encode .ret = 0x00EE ∧
    (∀ j : Fin 16, s.sp.val = j.val + 1 → ∃ t, exec .ret s = .next t ∧
      t.sp.val = j.val ∧ t.pc = s.stack.get j + 2 ∧ OnlyChanges s t (fun p => p = .pc ∨ p = .sp)) ∧
    (s.sp.val = 0 →
      exec .ret s = .next { s with status := .faulted ⟨.stackUnderflow, s.pc, some 0x00EE, none⟩ })

/-- R122 JP nnn, word 1NNN. The word is D3 (log 12). -/
def Obligations.JpSetsThePc : Prop :=
  ∀ (nnn : Addr) (s : State), (encode (.jp nnn)).toNat = 0x1000 + nnn.toNat ∧ ∃ t, exec (.jp nnn) s = .next t ∧
    t.pc.toNat = nnn.toNat ∧ OnlyChanges s t (fun p => p = .pc)

/-- R123 CALL nnn, word 2NNN: with sp < 16, the CALL's own address is pushed; with sp = 16, StackOverflow and nothing
else. The word is D3 (log 12), the fault D12 (log 25). -/
def Obligations.CallPushesItsOwnAddress : Prop :=
  ∀ (nnn : Addr) (s : State), (encode (.call nnn)).toNat = 0x2000 + nnn.toNat ∧
    (∀ j : Fin 16, s.sp.val = j.val → ∃ t, exec (.call nnn) s = .next t ∧
      t.stack.get j = s.pc ∧ t.sp.val = j.val + 1 ∧ t.pc.toNat = nnn.toNat ∧
      OnlyChanges s t (fun p => p = .pc ∨ p = .sp ∨ p = .stackEntry j)) ∧
    (s.sp.val = 16 →
      exec (.call nnn) s =
        .next { s with status := .faulted ⟨.stackOverflow, s.pc, some (encode (.call nnn)), none⟩ })

/-- R124 JP V0, nnn, word BNNN. The word is D3 (log 12). -/
def Obligations.JpV0AddsTheOffset : Prop :=
  ∀ (nnn : Addr) (s : State), (encode (.jpV0 nnn)).toNat = 0xB000 + nnn.toNat ∧ ∃ t, exec (.jpV0 nnn) s = .next t ∧
    t.pc.toNat = nnn.toNat + (s.v 0).toNat ∧ OnlyChanges s t (fun p => p = .pc)

/-- A RET after a CALL, with the stack as the CALL left it, resumes at the word after the CALL with the stack pointer
the CALL found (95_test_vectors.md L1-10). -/
def Obligations.ReturnResumesAfterTheCall : Prop :=
  ∀ (nnn : Addr) (s t u : State), s.sp.val < 16 → exec (.call nnn) s = .next t →
    u.stack = t.stack → u.sp = t.sp →
    ∃ v, exec .ret u = .next v ∧ v.pc = s.pc + 2 ∧ v.sp = s.sp

/-! ## Conditional skips -/

/-- R140 to R143: SE and SNE, with an immediate (words 3XNN, 4XNN) and with a register (5XYN, 9XYN). Only pc changes.
The words are D3 (log 12), the ignored nibbles D6 (log 13). -/
def Obligations.CompareSkipsMoveOnlyThePc : Prop :=
  ∀ (x y : Reg) (nn : Byte) (n : Nibble) (s : State),
    (encode (.seImm x nn)).toNat = 0x3000 + 256 * x.val + nn.toNat ∧
    (encode (.sneImm x nn)).toNat = 0x4000 + 256 * x.val + nn.toNat ∧
    (encode (.seReg x y n)).toNat = 0x5000 + 256 * x.val + 16 * y.val + n.toNat ∧
    (encode (.sneReg x y n)).toNat = 0x9000 + 256 * x.val + 16 * y.val + n.toNat ∧
    (∃ t, exec (.seImm x nn) s = .next t ∧ t.pc = s.pc + (if s.v x = nn then 4 else 2) ∧
      OnlyChanges s t (fun p => p = .pc)) ∧
    (∃ t, exec (.sneImm x nn) s = .next t ∧ t.pc = s.pc + (if s.v x ≠ nn then 4 else 2) ∧
      OnlyChanges s t (fun p => p = .pc)) ∧
    (∃ t, exec (.seReg x y n) s = .next t ∧ t.pc = s.pc + (if s.v x = s.v y then 4 else 2) ∧
      OnlyChanges s t (fun p => p = .pc)) ∧
    (∃ t, exec (.sneReg x y n) s = .next t ∧ t.pc = s.pc + (if s.v x ≠ s.v y then 4 else 2) ∧
      OnlyChanges s t (fun p => p = .pc))

/-- R144, R145: SKP (word EX9E) and SKNP (EXA1) on a register in 0..15; above 15, KeyIndexOutOfRange with the register's
value (R265). The words are D3 (log 12), the fault D14 (log 15). -/
def Obligations.KeySkipsReadTheKey : Prop :=
  ∀ (x : Reg) (s : State),
    (encode (.skp x)).toNat = 0xE09E + 256 * x.val ∧ (encode (.sknp x)).toNat = 0xE0A1 + 256 * x.val ∧
    (∀ k : Fin 16, (s.v x).toNat = k.val →
      (∃ t, exec (.skp x) s = .next t ∧ t.pc = s.pc + (if s.key k = true then 4 else 2) ∧
        OnlyChanges s t (fun p => p = .pc)) ∧
      (∃ t, exec (.sknp x) s = .next t ∧ t.pc = s.pc + (if s.key k = true then 2 else 4) ∧
        OnlyChanges s t (fun p => p = .pc))) ∧
    ((s.v x).toNat > 15 →
      exec (.skp x) s = .next
        { s with status := .faulted ⟨.keyIndexOutOfRange, s.pc, some (encode (.skp x)), some (s.v x).toNat⟩ } ∧
      exec (.sknp x) s = .next
        { s with status := .faulted ⟨.keyIndexOutOfRange, s.pc, some (encode (.sknp x)), some (s.v x).toNat⟩ })

/-! ## Immediate and register arithmetic -/

/-- R160, R161, R162: LD Vx, nn (word 6XNN); ADD Vx, nn (7XNN); LD Vx, Vy (8XY0). No flag. The words are D3 (log 12). -/
def Obligations.LoadAndAddImmediate : Prop :=
  ∀ (x y : Reg) (nn : Byte) (s : State),
    (encode (.ldImm x nn)).toNat = 0x6000 + 256 * x.val + nn.toNat ∧
    (encode (.addImm x nn)).toNat = 0x7000 + 256 * x.val + nn.toNat ∧
    (encode (.ldReg x y)).toNat = 0x8000 + 256 * x.val + 16 * y.val ∧
    (∃ t, exec (.ldImm x nn) s = .next t ∧ t.v x = nn ∧ t.pc = s.pc + 2 ∧
      OnlyChanges s t (fun p => p = .pc ∨ p = .reg x)) ∧
    (∃ t, exec (.addImm x nn) s = .next t ∧ (t.v x).toNat = ((s.v x).toNat + nn.toNat) % 256 ∧ t.pc = s.pc + 2 ∧
      OnlyChanges s t (fun p => p = .pc ∨ p = .reg x)) ∧
    (∃ t, exec (.ldReg x y) s = .next t ∧ t.v x = s.v y ∧ t.pc = s.pc + 2 ∧
      OnlyChanges s t (fun p => p = .pc ∨ p = .reg x))

/-- R163, R164, R165: OR, AND, XOR (words 8XY1, 8XY2, 8XY3), bit by bit. No flag: VF changes only as the destination.
The words are D3 (log 12), VF kept is D23 (log 27). -/
def Obligations.LogicIsBitwiseWithoutFlag : Prop :=
  ∀ (x y : Reg) (s : State),
    (encode (.orReg x y)).toNat = 0x8001 + 256 * x.val + 16 * y.val ∧
    (encode (.andReg x y)).toNat = 0x8002 + 256 * x.val + 16 * y.val ∧
    (encode (.xorReg x y)).toNat = 0x8003 + 256 * x.val + 16 * y.val ∧
    (∃ t, exec (.orReg x y) s = .next t ∧
      (∀ b, (t.v x).getLsbD b = ((s.v x).getLsbD b || (s.v y).getLsbD b)) ∧ t.pc = s.pc + 2 ∧
      OnlyChanges s t (fun p => p = .pc ∨ p = .reg x)) ∧
    (∃ t, exec (.andReg x y) s = .next t ∧
      (∀ b, (t.v x).getLsbD b = ((s.v x).getLsbD b && (s.v y).getLsbD b)) ∧ t.pc = s.pc + 2 ∧
      OnlyChanges s t (fun p => p = .pc ∨ p = .reg x)) ∧
    (∃ t, exec (.xorReg x y) s = .next t ∧
      (∀ b, (t.v x).getLsbD b = ((s.v x).getLsbD b ^^ (s.v y).getLsbD b)) ∧ t.pc = s.pc + 2 ∧
      OnlyChanges s t (fun p => p = .pc ∨ p = .reg x))

/-- R166 ADD Vx, Vy (word 8XY4): the sum modulo 256 in Vx, also for x = 15; else VF is the carry of the unreduced sum.
The word is D3 (log 12), the write order D7 (log 8). -/
def Obligations.AddWritesCarryThenSum : Prop :=
  ∀ (x y : Reg) (s : State), (encode (.addReg x y)).toNat = 0x8004 + 256 * x.val + 16 * y.val ∧
    ∃ t, exec (.addReg x y) s = .next t ∧
    (t.v x).toNat = ((s.v x).toNat + (s.v y).toNat) % 256 ∧
    (x ≠ vf → t.v vf = if (s.v x).toNat + (s.v y).toNat > 255 then 1 else 0) ∧
    t.pc = s.pc + 2 ∧ OnlyChanges s t (fun p => p = .pc ∨ p = .reg x ∨ p = .reg vf)

/-- R167 SUB (word 8XY5) and R169 SUBN (8XY7): the difference modulo 256 in Vx, also for x = 15; else VF is 1 for a
strictly greater minuend. The words are D3 (log 12), the write order D7 (log 8), the strict comparison of SUBN D8 (log
9). -/
def Obligations.SubtractionsWriteNoBorrowThenDifference : Prop :=
  ∀ (x y : Reg) (s : State),
    (encode (.sub x y)).toNat = 0x8005 + 256 * x.val + 16 * y.val ∧
    (encode (.subn x y)).toNat = 0x8007 + 256 * x.val + 16 * y.val ∧
    (∃ t, exec (.sub x y) s = .next t ∧
      (t.v x).toNat = ((s.v x).toNat + 256 - (s.v y).toNat) % 256 ∧
      (x ≠ vf → t.v vf = if (s.v x).toNat > (s.v y).toNat then 1 else 0) ∧
      t.pc = s.pc + 2 ∧ OnlyChanges s t (fun p => p = .pc ∨ p = .reg x ∨ p = .reg vf)) ∧
    (∃ t, exec (.subn x y) s = .next t ∧
      (t.v x).toNat = ((s.v y).toNat + 256 - (s.v x).toNat) % 256 ∧
      (x ≠ vf → t.v vf = if (s.v y).toNat > (s.v x).toNat then 1 else 0) ∧
      t.pc = s.pc + 2 ∧ OnlyChanges s t (fun p => p = .pc ∨ p = .reg x ∨ p = .reg vf))

/-- R168 SHR (word 8XY6) and R170 SHL (8XYE), whose y nibble is ignored: half and double of Vx, also for x = 15; else VF
is bit 0, or the raw bit 7 (0x00 or 0x80). The words are D3 (log 12), the write order D7 (log 8). -/
def Obligations.ShiftsWriteTheBitShiftedOut : Prop :=
  ∀ (x : Reg) (n : Nibble) (s : State),
    (encode (.shr x n)).toNat = 0x8006 + 256 * x.val + 16 * n.toNat ∧
    (encode (.shl x n)).toNat = 0x800E + 256 * x.val + 16 * n.toNat ∧
    (∃ t, exec (.shr x n) s = .next t ∧
      (t.v x).toNat = (s.v x).toNat / 2 ∧ (x ≠ vf → (t.v vf).toNat = (s.v x).toNat % 2) ∧
      t.pc = s.pc + 2 ∧ OnlyChanges s t (fun p => p = .pc ∨ p = .reg x ∨ p = .reg vf)) ∧
    (∃ t, exec (.shl x n) s = .next t ∧
      (t.v x).toNat = 2 * (s.v x).toNat % 256 ∧
      (x ≠ vf → (t.v vf).toNat = if (s.v x).toNat ≥ 128 then 0x80 else 0) ∧
      t.pc = s.pc + 2 ∧ OnlyChanges s t (fun p => p = .pc ∨ p = .reg x ∨ p = .reg vf))

/-! ## Random -/

/-- R191 RND Vx, nn (word CXNN): the cycle's byte under the mask, for every byte the cycle may receive; so the result is
a subset of the bits of nn. The word is D3 (log 12), the free byte D16 (log 4). -/
def Obligations.RndIsTheCycleByteUnderTheMask : Prop :=
  ∀ (x : Reg) (nn : Byte) (s : State), (encode (.rnd x nn)).toNat = 0xC000 + 256 * x.val + nn.toNat ∧
    ∃ t, exec (.rnd x nn) s = .next t ∧
    t.v x = s.rndByte &&& nn ∧ (∀ b, (t.v x).getLsbD b = true → nn.getLsbD b = true) ∧
    t.pc = s.pc + 2 ∧ OnlyChanges s t (fun p => p = .pc ∨ p = .reg x)

/-! ## Memory and address register -/

/-- R200, R201, R202: LD I, nnn (word ANNN); ADD I, Vx (FX1E; wrapping at 12 bits, no flag); LD F, Vx (FX29; low nibble
only). The words are D3 (log 12), the 12-bit wrap D9 (log 7), VF kept D23 (log 27). -/
def Obligations.AddressRegisterWrites : Prop :=
  ∀ (nnn : Addr) (x : Reg) (s : State),
    (encode (.ldI nnn)).toNat = 0xA000 + nnn.toNat ∧ (encode (.addI x)).toNat = 0xF01E + 256 * x.val ∧
    (encode (.ldF x)).toNat = 0xF029 + 256 * x.val ∧
    (∃ t, exec (.ldI nnn) s = .next t ∧ t.I.toNat = nnn.toNat ∧ t.pc = s.pc + 2 ∧
      OnlyChanges s t (fun p => p = .pc ∨ p = .addressReg)) ∧
    (∃ t, exec (.addI x) s = .next t ∧ t.I.toNat = (s.I.toNat + (s.v x).toNat) % 4096 ∧ t.pc = s.pc + 2 ∧
      OnlyChanges s t (fun p => p = .pc ∨ p = .addressReg)) ∧
    (∃ t, exec (.ldF x) s = .next t ∧ t.I.toNat = 0x50 + 5 * ((s.v x).toNat % 16) ∧ t.pc = s.pc + 2 ∧
      OnlyChanges s t (fun p => p = .pc ∨ p = .addressReg))

/-- R203 LD B, Vx (word FX33): the three digits at I, I + 1, I + 2; every other byte and I unchanged. With I + 2 above
0xFFF (and I in 0..0xFFF, R24), MemOutOfRange and nothing else. The word is D3 (log 12), the check before the first
access D10 (log 16). -/
def Obligations.DecimalDigitsAreStored : Prop :=
  ∀ (x : Reg) (s : State), (encode (.ldB x)).toNat = 0xF033 + 256 * x.val ∧
    (s.I.toNat + 2 ≤ 0xFFF → ∃ t, exec (.ldB x) s = .next t ∧
      (t.read s.I.toNat).toNat = (s.v x).toNat / 100 ∧
      (t.read (s.I.toNat + 1)).toNat = (s.v x).toNat / 10 % 10 ∧
      (t.read (s.I.toNat + 2)).toNat = (s.v x).toNat % 10 ∧
      t.pc = s.pc + 2 ∧
      OnlyChanges s t (fun p => p = .pc ∨ ∃ k, k ≤ 2 ∧ p = .byte (s.I.toNat + k))) ∧
    (s.I.toNat ≤ 0xFFF → s.I.toNat + 2 > 0xFFF → exec (.ldB x) s =
      .next { s with status := .faulted ⟨.memOutOfRange, s.pc, some (encode (.ldB x)), some 0x1000⟩ })

/-- R204 LD [I], Vx (word FX55): V0..Vx at I, I + 1, …; every other byte, I and the registers unchanged. With I + x
above 0xFFF (and I in 0..0xFFF, R24), MemOutOfRange and nothing else. The word is D3 (log 12), the check before the
first access D10 (log 16). -/
def Obligations.RegistersAreStored : Prop :=
  ∀ (x : Reg) (s : State), (encode (.stRegs x)).toNat = 0xF055 + 256 * x.val ∧
    (s.I.toNat + x.val ≤ 0xFFF → ∃ t, exec (.stRegs x) s = .next t ∧
      (∀ i : Reg, i ≤ x → t.read (s.I.toNat + i.val) = s.v i) ∧ t.pc = s.pc + 2 ∧
      OnlyChanges s t (fun p => p = .pc ∨ ∃ i : Reg, i ≤ x ∧ p = .byte (s.I.toNat + i.val))) ∧
    (s.I.toNat ≤ 0xFFF → s.I.toNat + x.val > 0xFFF → exec (.stRegs x) s =
      .next { s with status := .faulted ⟨.memOutOfRange, s.pc, some (encode (.stRegs x)), some 0x1000⟩ })

/-- R205 LD Vx, [I] (word FX65): V0..Vx from I, I + 1, …; I advances by x + 1 and wraps at 12 bits; memory unchanged.
With I + x above 0xFFF (and I in 0..0xFFF, R24), MemOutOfRange and nothing else. The word is D3 (log 12), the wrap D9
(log 7), the check before the first access D10 (log 16). -/
def Obligations.RegistersAreLoaded : Prop :=
  ∀ (x : Reg) (s : State), (encode (.ldRegs x)).toNat = 0xF065 + 256 * x.val ∧
    (s.I.toNat + x.val ≤ 0xFFF → ∃ t, exec (.ldRegs x) s = .next t ∧
      (∀ i : Reg, i ≤ x → t.v i = s.read (s.I.toNat + i.val)) ∧
      t.I.toNat = (s.I.toNat + x.val + 1) % 4096 ∧ t.pc = s.pc + 2 ∧
      OnlyChanges s t (fun p => p = .pc ∨ p = .addressReg ∨ ∃ i : Reg, i ≤ x ∧ p = .reg i)) ∧
    (s.I.toNat ≤ 0xFFF → s.I.toNat + x.val > 0xFFF → exec (.ldRegs x) s =
      .next { s with status := .faulted ⟨.memOutOfRange, s.pc, some (encode (.ldRegs x)), some 0x1000⟩ })

/-- R263: an instruction that accesses data at I, …, I + n - 1 raises MemOutOfRange exactly when one of those addresses
exceeds 0xFFF, before its first access, with 0x1000, the lowest such address; nothing else changes. I in 0..0xFFF is
part of the invariant (R24). The check before the first access is D10 (log 16). -/
def Obligations.DataAccessOutsideMemoryFaults : Prop :=
  ∀ (i : Instr) (n : Nat) (s : State), s.status = .running → s.I.toNat ≤ 0xFFF →
    n = (match i with
      | .ldB _ => 3
      | .stRegs x | .ldRegs x => x.val + 1
      | .drw _ _ rows => rows.toNat
      | _ => 0) →
    ((∃ k, k < n ∧ s.I.toNat + k > 0xFFF) → exec i s =
      .next { s with status := .faulted ⟨.memOutOfRange, s.pc, some (encode i), some 0x1000⟩ }) ∧
    ((∀ k, k < n → s.I.toNat + k ≤ 0xFFF) →
      ∀ t r, exec i s = .next t → t.status = .faulted r → r.kind ≠ .memOutOfRange)

/-- Storing V0..Vx and loading them back leaves every register as it was, with I advanced by x + 1 (from R204, R205; the
12-bit wrap of I is D9, log 7). -/
def Obligations.StoreThenLoadRestoresTheRegisters : Prop :=
  ∀ (x : Reg) (s t : State), s.I.toNat + x.val ≤ 0xFFF → exec (.stRegs x) s = .next t →
    ∃ u, exec (.ldRegs x) t = .next u ∧ u.V = s.V ∧ u.mem = t.mem ∧ u.I.toNat = (s.I.toNat + x.val + 1) % 4096

/-- R73, R314: a memory write is seen by the very next fetch. After FX55 the word fetched at I + k is made of the
registers Vk and V(k+1) just stored there; after FX33 the words fetched at I and at I + 1 are made of the digits just
stored. -/
def Obligations.StoresAreSeenByTheNextFetch : Prop :=
  ∀ (x : Reg) (s t : State),
    (s.I.toNat + x.val ≤ 0xFFF → exec (.stRegs x) s = .next t → ∀ k k' : Reg, k < x → k'.val = k.val + 1 →
      fetch (t.setPc (BitVec.ofNat 16 (s.I.toNat + k.val))) = .ok (wordOfBytes (s.v k) (s.v k'))) ∧
    (s.I.toNat + 2 ≤ 0xFFF → exec (.ldB x) s = .next t →
      (∃ w, fetch (t.setPc s.I) = .ok w ∧ w.toNat = (s.v x).toNat / 100 * 256 + (s.v x).toNat / 10 % 10) ∧
      (∃ w, fetch (t.setPc (BitVec.ofNat 16 (s.I.toNat + 1))) = .ok w ∧
        w.toNat = (s.v x).toNat / 10 % 10 * 256 + (s.v x).toNat % 10))

/-! ## Timers and input -/

/-- R220, R221, R222: FX07 reads DT as it is before the tick; FX15 and FX18 write a timer. (The tick that follows in the
cycle is TimersTickOncePerCompletedCycle.) The words are D3 (log 12). -/
def Obligations.TimerTransfers : Prop :=
  ∀ (x : Reg) (s : State),
    (encode (.ldVxDt x)).toNat = 0xF007 + 256 * x.val ∧ (encode (.ldDtVx x)).toNat = 0xF015 + 256 * x.val ∧
    (encode (.ldStVx x)).toNat = 0xF018 + 256 * x.val ∧
    (∃ t, exec (.ldVxDt x) s = .next t ∧ t.v x = s.DT ∧ t.pc = s.pc + 2 ∧
      OnlyChanges s t (fun p => p = .pc ∨ p = .reg x)) ∧
    (∃ t, exec (.ldDtVx x) s = .next t ∧ t.DT = s.v x ∧ t.pc = s.pc + 2 ∧
      OnlyChanges s t (fun p => p = .pc ∨ p = .delayTimer)) ∧
    (∃ t, exec (.ldStVx x) s = .next t ∧ t.ST = s.v x ∧ t.pc = s.pc + 2 ∧
      OnlyChanges s t (fun p => p = .pc ∨ p = .soundTimer))

/-- R223, R224: LD Vx, K (word FX0A) with no key pressed changes nothing; with a key pressed Vx is the index of some
pressed key, of THE pressed key when there is one only. The word is D3 (log 12), the free choice D15 (log 5). -/
def Obligations.KeyWaitPollsTheKeys : Prop :=
  ∀ (x : Reg) (s : State), (encode (.ldVxK x)).toNat = 0xF00A + 256 * x.val ∧
    ((∀ k, s.key k = false) → exec (.ldVxK x) s = .next s) ∧
    ((∃ k, s.key k = true) → ∃ t k, exec (.ldVxK x) s = .next t ∧ s.key k = true ∧ (t.v x).toNat = k.val ∧
      (∀ k', (∀ j, s.key j = true ↔ j = k') → k = k') ∧ t.pc = s.pc + 2 ∧
      OnlyChanges s t (fun p => p = .pc ∨ p = .reg x))

/-- A key wait spins: with no key pressed, n Steps leave pc at the FX0A and V as it is, and take n from each timer
(R223, R313). -/
def Obligations.KeyWaitSpinsWhileTimersRun : Prop :=
  ∀ (x : Reg) (n : Nat) (s : State), s.status = .running → fetch s = .ok (encode (.ldVxK x)) →
    (∀ k, s.key k = false) →
    ∃ t, hostRun (List.replicate n .step) s = .next t ∧ t.pc = s.pc ∧ t.V = s.V ∧
      t.DT.toNat = s.DT.toNat - n ∧ t.ST.toNat = s.ST.toNat - n

/-! ## Draw -/

/-- R240, R241, R242 DRW Vx, Vy, n (word DXYN), pixel by pixel: the pixel at (px, py) is toggled exactly when a set
sprite bit lands on it, bit 7 of a row byte leftmost, each axis wrapping by itself; VF is 1 exactly when a pixel that
was set is toggled; redraw is set. VF, redraw, pc and pixels are all that changes. With a row above 0xFFF (and I in
0..0xFFF, R24), MemOutOfRange and nothing else. The word is D3 (log 12), the bit order D19 (log 10), n = 0 is D20 (log
11). -/
def Obligations.DrawTogglesTheSpritePixels : Prop :=
  ∀ (x y : Reg) (n : Nibble) (s : State),
    (encode (.drw x y n)).toNat = 0xD000 + 256 * x.val + 16 * y.val + n.toNat ∧
    (n.toNat = 0 ∨ s.I.toNat + n.toNat ≤ 0x1000 → ∃ t, exec (.drw x y n) s = .next t ∧
      (∀ px py, SpriteHit s x y n px py → pixelAt t.fb px py = !pixelAt s.fb px py) ∧
      (∀ px py, ¬ SpriteHit s x y n px py → pixelAt t.fb px py = pixelAt s.fb px py) ∧
      ((∃ px py, SpriteHit s x y n px py ∧ pixelAt s.fb px py = true) → t.v vf = 1) ∧
      ((¬ ∃ px py, SpriteHit s x y n px py ∧ pixelAt s.fb px py = true) → t.v vf = 0) ∧
      t.redraw = true ∧ t.pc = s.pc + 2 ∧
      OnlyChanges s t (fun p => p = .pc ∨ p = .redraw ∨ p = .reg vf ∨ ∃ px py, p = .pixel px py)) ∧
    (s.I.toNat ≤ 0xFFF → 0 < n.toNat → s.I.toNat + n.toNat - 1 > 0xFFF → exec (.drw x y n) s =
      .next { s with status := .faulted ⟨.memOutOfRange, s.pc, some (encode (.drw x y n)), some 0x1000⟩ })

/-- R244: drawing the same sprite at the same place twice in a row, with the same I, memory, Vx and Vy and no other
change of the framebuffer between the draws, restores the framebuffer exactly, and the second draw sets VF to 1 exactly
when some set sprite bit lands on a pixel that was 0 before the first draw, else to 0. For n = 0 this rests on D20 (log
11); the bit order is D19 (log 10). -/
def Obligations.DrawTwiceRestoresTheScreen : Prop :=
  ∀ (x y : Reg) (n : Nibble) (s t t' u : State), (n.toNat = 0 ∨ s.I.toNat + n.toNat ≤ 0x1000) →
    exec (.drw x y n) s = .next t →
    t'.fb = t.fb → t'.I = s.I → (∀ a, t'.read a = s.read a) → t'.v x = s.v x → t'.v y = s.v y →
    exec (.drw x y n) t' = .next u →
    u.fb = s.fb ∧
    ((∃ px py, SpriteHit s x y n px py ∧ pixelAt s.fb px py = false) → u.v vf = 1) ∧
    ((¬ ∃ px py, SpriteHit s x y n px py ∧ pixelAt s.fb px py = false) → u.v vf = 0)

/-! ## Initialisation, program load and the host -/

/-- The values after initialisation that the source states, whatever the parameters: pc (R43), the timers (R45), the
keys (R46), the framebuffer (R47), the redraw flag (R48) and the status (R49). State.reset has the default parameters.
-/
def Obligations.ResetValues : Prop :=
  State.reset = State.resetWith defaultParams ∧
  ∀ p : Params,
    (State.resetWith p).pc = 0x200 ∧ (State.resetWith p).DT = 0 ∧ (State.resetWith p).ST = 0 ∧
    (∀ k, (State.resetWith p).key k = false) ∧ (∀ x y, pixelAt (State.resetWith p).fb x y = false) ∧
    (State.resetWith p).redraw = false ∧ (State.resetWith p).status = .running

/-- The values after initialisation that are the spec's own choice: FONTSET, whatever table the machine is given,
stands at 0x50..0x9F (R40, R301), and the rest of memory, the registers, I and the stack entries are 0, the stack empty
(D17, log 14); with the default FONTSET the sixteen glyphs are those of the table of R301 (D18, GK3; log 2). -/
def Obligations.ResetContents : Prop :=
  (∀ p : Params,
    (∀ i : Fin 80, (State.resetWith p).read (0x50 + i.val) = p.fontset.get i) ∧
    (∀ a, a < 0x50 ∨ (0xA0 ≤ a ∧ a < 4096) → (State.resetWith p).read a = 0) ∧
    (∀ x, (State.resetWith p).v x = 0) ∧ (State.resetWith p).I = 0 ∧ (State.resetWith p).sp = 0 ∧
    ∀ j, (State.resetWith p).stack.get j = 0) ∧
  State.reset.readBytes 0x50 5 = [0xF0, 0x90, 0x90, 0x90, 0xF0] ∧
  State.reset.readBytes 0x55 5 = [0x20, 0x60, 0x20, 0x20, 0x70] ∧
  State.reset.readBytes 0x5A 5 = [0xF0, 0x10, 0xF0, 0x80, 0xF0] ∧
  State.reset.readBytes 0x5F 5 = [0xF0, 0x10, 0xF0, 0x10, 0xF0] ∧
  State.reset.readBytes 0x64 5 = [0x90, 0x90, 0xF0, 0x10, 0x10] ∧
  State.reset.readBytes 0x69 5 = [0xF0, 0x80, 0xF0, 0x10, 0xF0] ∧
  State.reset.readBytes 0x6E 5 = [0xF0, 0x80, 0xF0, 0x90, 0xF0] ∧
  State.reset.readBytes 0x73 5 = [0xF0, 0x10, 0x20, 0x40, 0x40] ∧
  State.reset.readBytes 0x78 5 = [0xF0, 0x90, 0xF0, 0x90, 0xF0] ∧
  State.reset.readBytes 0x7D 5 = [0xF0, 0x90, 0xF0, 0x10, 0xF0] ∧
  State.reset.readBytes 0x82 5 = [0xF0, 0x90, 0xF0, 0x90, 0x90] ∧
  State.reset.readBytes 0x87 5 = [0xE0, 0x90, 0xE0, 0x90, 0xE0] ∧
  State.reset.readBytes 0x8C 5 = [0xF0, 0x80, 0x80, 0x80, 0xF0] ∧
  State.reset.readBytes 0x91 5 = [0xE0, 0x90, 0x90, 0x90, 0xE0] ∧
  State.reset.readBytes 0x96 5 = [0xF0, 0x80, 0xF0, 0x80, 0xF0] ∧
  State.reset.readBytes 0x9B 5 = [0xF0, 0x80, 0xF0, 0x80, 0x80]

/-- Init gives every element its reset value from any state (R300), and is the only action that leaves Faulted or
LoadFailed (R33). That Init keeps the index of the random bytes and the parameters is the model's choice (log 4, log
29). -/
def Obligations.OnlyInitLeavesAHalt : Prop :=
  (∀ s : State, hostAct .init s = .next { State.resetWith s.params with cycle := s.cycle }) ∧
  ∀ (a : HostAction) (s t : State), s.status ≠ .running → hostAct a s = .next t →
    a = .init ∨ t.status = s.status

/-- R302: after Init an image of at most 3584 bytes is copied to 0x200, 0x201, … in order; no other byte and no other
element of the machine changes. A second load is refused. The policy is D22 (log 30); how the model knows that Init has
just run is log 17. -/
def Obligations.LoadCopiesTheImage : Prop :=
  ∀ (s : State) (b : List Byte), s.status = .running → s.phase = .fresh → b.length ≤ 3584 →
    ∃ t, hostAct (.loadProgram (.bytes b)) s = .next t ∧
      (∀ i, i < b.length → t.read (0x200 + i) = b.getD i 0) ∧
      OnlyChanges s t (fun p => p = .phase ∨ ∃ i, i < b.length ∧ p = .byte (0x200 + i)) ∧
      ∀ image, hostAct (.loadProgram image) t = .refused .loadOutsideInterface

/-- A load after the first Step is refused (R302): after a Step that completed, and after one that raised. How the model
knows is log 17. -/
def Obligations.LoadAfterAStepIsRefused : Prop :=
  ∀ (s t : State) (image : Image), s.status = .running → step s = .next t →
    hostAct (.loadProgram image) t = .refused .loadOutsideInterface

/-- R303: an image of more than 3584 bytes, or one that cannot be read, fails the load: no byte is copied, status is
LoadFailed with the reason, and no cycle runs. The policy is D22 (log 30); how the model knows that Init has just run is
log 17. -/
def Obligations.LoadFailureCopiesNothing : Prop :=
  ∀ s : State, s.status = .running → s.phase = .fresh →
    (∀ b : List Byte, 3584 < b.length →
      hostAct (.loadProgram (.bytes b)) s = .next { s with status := .loadFailed (.tooLarge b.length) } ∧
      step { s with status := .loadFailed (.tooLarge b.length) } =
        .next { s with status := .loadFailed (.tooLarge b.length) }) ∧
    hostAct (.loadProgram .readFailure) s = .next { s with status := .loadFailed .readError } ∧
    step { s with status := .loadFailed .readError } = .next { s with status := .loadFailed .readError }

/-- If no program is loaded, the first Step after Init fetches 0x0000 from 0x200 and faults with UnknownOpcode (R304),
whatever the font. It rests on SYS_POLICY = fault, the default of D5, and on D17 (log 3, log 14). -/
def Obligations.EmptyMemoryFaultsAtTheEntryPoint : Prop :=
  ∀ p : Params, p.sysPolicy = .fault → step (State.resetWith p) =
    .next { State.resetWith p with status := .faulted ⟨.unknownOpcode, 0x200, some 0x0000, none⟩ }

/-- R292: SetKeys replaces the whole key vector and changes nothing else, whatever the status. -/
def Obligations.SetKeysReplacesTheKeys : Prop :=
  ∀ (s : State) (keys : Vector Bool 16),
    ∃ t, hostAct (.setKeys keys) s = .next t ∧ (∀ k, t.key k = keys.get k) ∧ OnlyChanges s t (fun p => ∃ k, p = .key k)

/-- The reads of R290: framebuffer bit p = y*64 + x is the pixel that DRW and CLS name (x, y) (R31); the timers, and
sound-active, true exactly while ST is above 0 (R283); the redraw flag; the status. A FaultRecord stays readable through
ReadStatus after the Step that raised it, and after every later Step (R294). -/
def Obligations.HostReadsReportTheState : Prop :=
  ∀ (s : State) (x : Fin 64) (y : Fin 32) (p : Fin 2048),
    (p.val = y.val * 64 + x.val → s.framebufferBit p = pixelAt s.fb x y) ∧
    s.readTimers.1 = s.DT ∧ s.readTimers.2.1 = s.ST ∧ (s.readTimers.2.2 = true ↔ s.ST.toNat > 0) ∧
    s.readRedraw = s.redraw ∧ s.readStatus = s.status ∧
    ∀ t r, step s = .next t → t.status = .faulted r →
      ∀ n, ∃ u, hostRun (List.replicate n .step) t = .next u ∧ u.readStatus = .faulted r
end

