-- ==== Sys2Proof/Laws/Decode.lean ====
section
/-! SUPPORT. Fields and words on naturals, for `omega`. -/

namespace Sys2Proof

theorem field_15_12 (w : Word) : field w 15 12 = w.toNat / 4096 := by
  have := w.isLt
  simp only [field]
  omega

theorem field_11_8 (w : Word) : field w 11 8 = w.toNat / 256 % 16 := rfl
theorem field_7_4 (w : Word) : field w 7 4 = w.toNat / 16 % 16 := rfl
theorem field_3_0 (w : Word) : field w 3 0 = w.toNat % 16 := by simp [field]
theorem field_7_0 (w : Word) : field w 7 0 = w.toNat % 256 := by simp [field]
theorem field_11_0 (w : Word) : field w 11 0 = w.toNat % 4096 := by simp [field]

theorem familyOf_eq (w : Word) : familyOf w = w.toNat / 4096 := field_15_12 w

theorem xOf_val (w : Word) : (xOf w).val = w.toNat / 256 % 16 := by
  simp [xOf, field_11_8, Fin.ofNat]

theorem yOf_val (w : Word) : (yOf w).val = w.toNat / 16 % 16 := by
  simp [yOf, field_7_4, Fin.ofNat]

theorem yNibbleOf_toNat (w : Word) : (yNibbleOf w).toNat = w.toNat / 16 % 16 := by
  simp [yNibbleOf, field_7_4]

theorem nOf_toNat (w : Word) : (nOf w).toNat = w.toNat % 16 := by
  simp [nOf, field_3_0]

theorem nnOf_toNat (w : Word) : (nnOf w).toNat = w.toNat % 256 := by
  simp [nnOf, field_7_0]

theorem nnnOf_toNat (w : Word) : (nnnOf w).toNat = w.toNat % 4096 := by
  simp [nnnOf, field_11_0]

theorem encodeNNN_toNat (family : Nat) (h : family < 16) (nnn : Addr) :
    (encodeNNN family nnn).toNat = family * 4096 + nnn.toNat := by
  have := nnn.isLt
  simp only [encodeNNN, BitVec.toNat_ofNat]
  omega

theorem encodeXNN_toNat (family : Nat) (h : family < 16) (x : Reg) (nn : Byte) :
    (encodeXNN family x nn).toNat = family * 4096 + x.val * 256 + nn.toNat := by
  have := nn.isLt
  have := x.isLt
  simp only [encodeXNN, BitVec.toNat_ofNat]
  omega

theorem encodeXYN_toNat (family x y n : Nat) (h : family < 16) (hx : x < 16) (hy : y < 16) (hn : n < 16) :
    (encodeXYN family x y n).toNat = family * 4096 + x * 256 + y * 16 + n := by
  simp only [encodeXYN, BitVec.toNat_ofNat]
  omega

/-- The big-endian word of two bytes, as a number (R63, R80). -/
theorem wordOfBytes_toNat (high low : Byte) : (wordOfBytes high low).toNat = high.toNat * 256 + low.toNat := by
  have := high.isLt
  have := low.isLt
  simp only [wordOfBytes, BitVec.toNat_ofNat]
  omega

/-- A word laid out in memory is read back as the same word. -/
theorem wordOfBytes_high_low (w : Word) : wordOfBytes (highByte w) (lowByte w) = w := by
  apply BitVec.eq_of_toNat_eq
  have := w.isLt
  rw [wordOfBytes_toNat]
  simp only [highByte, lowByte, BitVec.toNat_ofNat]
  omega

/-! ## The three masks of the opcode table -/

theorem and_mask_F000 (w : Word) : (w &&& 0xF000#16).toNat = w.toNat / 4096 * 4096 := by
  have h : w &&& 0xF000#16 = (w >>> 12) <<< 12 := by
    ext i hi
    interval_cases i <;> simp
  have := w.isLt
  rw [h, BitVec.toNat_shiftLeft, BitVec.toNat_ushiftRight, Nat.shiftLeft_eq, Nat.shiftRight_eq_div_pow]
  omega

theorem toNat_or_disjoint (a b k : Nat) (h : b < 2 ^ k) : (a * 2 ^ k) ||| b = a * 2 ^ k + b := by
  rw [← Nat.shiftLeft_eq, Nat.shiftLeft_add_eq_or_of_lt h]

theorem and_mask_F00F (w : Word) : (w &&& 0xF00F#16).toNat = w.toNat / 4096 * 4096 + w.toNat % 16 := by
  have h : w &&& 0xF00F#16 = (w >>> 12) <<< 12 ||| (w <<< 12) >>> 12 := by
    ext i hi
    interval_cases i <;> simp
  have hw := w.isLt
  rw [h, BitVec.toNat_or]
  have h1 : ((w >>> 12) <<< 12).toNat = w.toNat / 4096 * 2 ^ 12 := by
    rw [BitVec.toNat_shiftLeft, BitVec.toNat_ushiftRight, Nat.shiftLeft_eq, Nat.shiftRight_eq_div_pow]; omega
  have h2 : ((w <<< 12) >>> 12).toNat = w.toNat % 16 := by
    rw [BitVec.toNat_ushiftRight, BitVec.toNat_shiftLeft, Nat.shiftLeft_eq, Nat.shiftRight_eq_div_pow]; omega
  rw [h1, h2, toNat_or_disjoint _ _ _ (by omega), show (2 : Nat) ^ 12 = 4096 from rfl]

theorem and_mask_F0FF (w : Word) : (w &&& 0xF0FF#16).toNat = w.toNat / 4096 * 4096 + w.toNat % 256 := by
  have h : w &&& 0xF0FF#16 = (w >>> 12) <<< 12 ||| (w <<< 8) >>> 8 := by
    ext i hi
    interval_cases i <;> simp
  have hw := w.isLt
  rw [h, BitVec.toNat_or]
  have h1 : ((w >>> 12) <<< 12).toNat = w.toNat / 4096 * 2 ^ 12 := by
    rw [BitVec.toNat_shiftLeft, BitVec.toNat_ushiftRight, Nat.shiftLeft_eq, Nat.shiftRight_eq_div_pow]; omega
  have h2 : ((w <<< 8) >>> 8).toNat = w.toNat % 256 := by
    rw [BitVec.toNat_ushiftRight, BitVec.toNat_shiftLeft, Nat.shiftLeft_eq, Nat.shiftRight_eq_div_pow]; omega
  rw [h1, h2, toNat_or_disjoint _ _ _ (by omega), show (2 : Nat) ^ 12 = 4096 from rfl]

/-- The word of every instruction, as a number. -/
theorem encode_toNat (i : Instr) : (encode i).toNat = match i with
  | .cls => 0x00E0
  | .ret => 0x00EE
  | .jp nnn => 0x1000 + nnn.toNat
  | .call nnn => 0x2000 + nnn.toNat
  | .seImm x nn => 0x3000 + x.val * 256 + nn.toNat
  | .sneImm x nn => 0x4000 + x.val * 256 + nn.toNat
  | .seReg x y ign => 0x5000 + x.val * 256 + y.val * 16 + ign.toNat
  | .ldImm x nn => 0x6000 + x.val * 256 + nn.toNat
  | .addImm x nn => 0x7000 + x.val * 256 + nn.toNat
  | .ldReg x y => 0x8000 + x.val * 256 + y.val * 16
  | .orReg x y => 0x8001 + x.val * 256 + y.val * 16
  | .andReg x y => 0x8002 + x.val * 256 + y.val * 16
  | .xorReg x y => 0x8003 + x.val * 256 + y.val * 16
  | .addReg x y => 0x8004 + x.val * 256 + y.val * 16
  | .sub x y => 0x8005 + x.val * 256 + y.val * 16
  | .shr x ign => 0x8006 + x.val * 256 + ign.toNat * 16
  | .subn x y => 0x8007 + x.val * 256 + y.val * 16
  | .shl x ign => 0x800E + x.val * 256 + ign.toNat * 16
  | .sneReg x y ign => 0x9000 + x.val * 256 + y.val * 16 + ign.toNat
  | .ldI nnn => 0xA000 + nnn.toNat
  | .jpV0 nnn => 0xB000 + nnn.toNat
  | .rnd x nn => 0xC000 + x.val * 256 + nn.toNat
  | .drw x y n => 0xD000 + x.val * 256 + y.val * 16 + n.toNat
  | .skp x => 0xE09E + x.val * 256
  | .sknp x => 0xE0A1 + x.val * 256
  | .ldVxDt x => 0xF007 + x.val * 256
  | .ldVxK x => 0xF00A + x.val * 256
  | .ldDtVx x => 0xF015 + x.val * 256
  | .ldStVx x => 0xF018 + x.val * 256
  | .addI x => 0xF01E + x.val * 256
  | .ldF x => 0xF029 + x.val * 256
  | .ldB x => 0xF033 + x.val * 256
  | .stRegs x => 0xF055 + x.val * 256
  | .ldRegs x => 0xF065 + x.val * 256 := by
  cases i <;> simp only [encode, encodeNNN, encodeXNN, encodeXYN, BitVec.toNat_ofNat,
    BitVec.ofNat_eq_ofNat] <;> try rfl
  all_goals omega

end Sys2Proof
end

