-- ==== Sys2Proof/Laws/State.lean ====
section
/-! SUPPORT. One lemma per field per update of State, so that no later proof unfolds a record update; then what each
update writes. -/

namespace Sys2Proof.Machine

/-! ## Fields an update leaves alone -/

@[simp] theorem State.setV_mem (s : State) (x : Reg) (b : Byte) : (s.setV x b).mem = s.mem := rfl
@[simp] theorem State.setV_I (s : State) (x : Reg) (b : Byte) : (s.setV x b).I = s.I := rfl
@[simp] theorem State.setV_pc (s : State) (x : Reg) (b : Byte) : (s.setV x b).pc = s.pc := rfl
@[simp] theorem State.setV_stack (s : State) (x : Reg) (b : Byte) : (s.setV x b).stack = s.stack := rfl
@[simp] theorem State.setV_sp (s : State) (x : Reg) (b : Byte) : (s.setV x b).sp = s.sp := rfl
@[simp] theorem State.setV_DT (s : State) (x : Reg) (b : Byte) : (s.setV x b).DT = s.DT := rfl
@[simp] theorem State.setV_ST (s : State) (x : Reg) (b : Byte) : (s.setV x b).ST = s.ST := rfl
@[simp] theorem State.setV_keys (s : State) (x : Reg) (b : Byte) : (s.setV x b).keys = s.keys := rfl
@[simp] theorem State.setV_fb (s : State) (x : Reg) (b : Byte) : (s.setV x b).fb = s.fb := rfl
@[simp] theorem State.setV_redraw (s : State) (x : Reg) (b : Byte) : (s.setV x b).redraw = s.redraw := rfl
@[simp] theorem State.setV_status (s : State) (x : Reg) (b : Byte) : (s.setV x b).status = s.status := rfl
@[simp] theorem State.setV_params (s : State) (x : Reg) (b : Byte) : (s.setV x b).params = s.params := rfl
@[simp] theorem State.setV_phase (s : State) (x : Reg) (b : Byte) : (s.setV x b).phase = s.phase := rfl
@[simp] theorem State.setV_cycle (s : State) (x : Reg) (b : Byte) : (s.setV x b).cycle = s.cycle := rfl

@[simp] theorem State.setFlagThenV_mem (s : State) (flag : Byte) (x : Reg) (b : Byte) : (s.setFlagThenV flag x b).mem = s.mem := rfl
@[simp] theorem State.setFlagThenV_I (s : State) (flag : Byte) (x : Reg) (b : Byte) : (s.setFlagThenV flag x b).I = s.I := rfl
@[simp] theorem State.setFlagThenV_pc (s : State) (flag : Byte) (x : Reg) (b : Byte) : (s.setFlagThenV flag x b).pc = s.pc := rfl
@[simp] theorem State.setFlagThenV_stack (s : State) (flag : Byte) (x : Reg) (b : Byte) : (s.setFlagThenV flag x b).stack = s.stack := rfl
@[simp] theorem State.setFlagThenV_sp (s : State) (flag : Byte) (x : Reg) (b : Byte) : (s.setFlagThenV flag x b).sp = s.sp := rfl
@[simp] theorem State.setFlagThenV_DT (s : State) (flag : Byte) (x : Reg) (b : Byte) : (s.setFlagThenV flag x b).DT = s.DT := rfl
@[simp] theorem State.setFlagThenV_ST (s : State) (flag : Byte) (x : Reg) (b : Byte) : (s.setFlagThenV flag x b).ST = s.ST := rfl
@[simp] theorem State.setFlagThenV_keys (s : State) (flag : Byte) (x : Reg) (b : Byte) : (s.setFlagThenV flag x b).keys = s.keys := rfl
@[simp] theorem State.setFlagThenV_fb (s : State) (flag : Byte) (x : Reg) (b : Byte) : (s.setFlagThenV flag x b).fb = s.fb := rfl
@[simp] theorem State.setFlagThenV_redraw (s : State) (flag : Byte) (x : Reg) (b : Byte) : (s.setFlagThenV flag x b).redraw = s.redraw := rfl
@[simp] theorem State.setFlagThenV_status (s : State) (flag : Byte) (x : Reg) (b : Byte) : (s.setFlagThenV flag x b).status = s.status := rfl
@[simp] theorem State.setFlagThenV_params (s : State) (flag : Byte) (x : Reg) (b : Byte) : (s.setFlagThenV flag x b).params = s.params := rfl
@[simp] theorem State.setFlagThenV_phase (s : State) (flag : Byte) (x : Reg) (b : Byte) : (s.setFlagThenV flag x b).phase = s.phase := rfl
@[simp] theorem State.setFlagThenV_cycle (s : State) (flag : Byte) (x : Reg) (b : Byte) : (s.setFlagThenV flag x b).cycle = s.cycle := rfl

@[simp] theorem State.setI_mem (s : State) (n : Nat) : (s.setI n).mem = s.mem := rfl
@[simp] theorem State.setI_V (s : State) (n : Nat) : (s.setI n).V = s.V := rfl
@[simp] theorem State.setI_pc (s : State) (n : Nat) : (s.setI n).pc = s.pc := rfl
@[simp] theorem State.setI_stack (s : State) (n : Nat) : (s.setI n).stack = s.stack := rfl
@[simp] theorem State.setI_sp (s : State) (n : Nat) : (s.setI n).sp = s.sp := rfl
@[simp] theorem State.setI_DT (s : State) (n : Nat) : (s.setI n).DT = s.DT := rfl
@[simp] theorem State.setI_ST (s : State) (n : Nat) : (s.setI n).ST = s.ST := rfl
@[simp] theorem State.setI_keys (s : State) (n : Nat) : (s.setI n).keys = s.keys := rfl
@[simp] theorem State.setI_fb (s : State) (n : Nat) : (s.setI n).fb = s.fb := rfl
@[simp] theorem State.setI_redraw (s : State) (n : Nat) : (s.setI n).redraw = s.redraw := rfl
@[simp] theorem State.setI_status (s : State) (n : Nat) : (s.setI n).status = s.status := rfl
@[simp] theorem State.setI_params (s : State) (n : Nat) : (s.setI n).params = s.params := rfl
@[simp] theorem State.setI_phase (s : State) (n : Nat) : (s.setI n).phase = s.phase := rfl
@[simp] theorem State.setI_cycle (s : State) (n : Nat) : (s.setI n).cycle = s.cycle := rfl

@[simp] theorem State.setPc_mem (s : State) (w : Word) : (s.setPc w).mem = s.mem := rfl
@[simp] theorem State.setPc_V (s : State) (w : Word) : (s.setPc w).V = s.V := rfl
@[simp] theorem State.setPc_I (s : State) (w : Word) : (s.setPc w).I = s.I := rfl
@[simp] theorem State.setPc_stack (s : State) (w : Word) : (s.setPc w).stack = s.stack := rfl
@[simp] theorem State.setPc_sp (s : State) (w : Word) : (s.setPc w).sp = s.sp := rfl
@[simp] theorem State.setPc_DT (s : State) (w : Word) : (s.setPc w).DT = s.DT := rfl
@[simp] theorem State.setPc_ST (s : State) (w : Word) : (s.setPc w).ST = s.ST := rfl
@[simp] theorem State.setPc_keys (s : State) (w : Word) : (s.setPc w).keys = s.keys := rfl
@[simp] theorem State.setPc_fb (s : State) (w : Word) : (s.setPc w).fb = s.fb := rfl
@[simp] theorem State.setPc_redraw (s : State) (w : Word) : (s.setPc w).redraw = s.redraw := rfl
@[simp] theorem State.setPc_status (s : State) (w : Word) : (s.setPc w).status = s.status := rfl
@[simp] theorem State.setPc_params (s : State) (w : Word) : (s.setPc w).params = s.params := rfl
@[simp] theorem State.setPc_phase (s : State) (w : Word) : (s.setPc w).phase = s.phase := rfl
@[simp] theorem State.setPc_cycle (s : State) (w : Word) : (s.setPc w).cycle = s.cycle := rfl

@[simp] theorem State.advance_mem (s : State) (n : Nat) : (s.advance n).mem = s.mem := rfl
@[simp] theorem State.advance_V (s : State) (n : Nat) : (s.advance n).V = s.V := rfl
@[simp] theorem State.advance_I (s : State) (n : Nat) : (s.advance n).I = s.I := rfl
@[simp] theorem State.advance_stack (s : State) (n : Nat) : (s.advance n).stack = s.stack := rfl
@[simp] theorem State.advance_sp (s : State) (n : Nat) : (s.advance n).sp = s.sp := rfl
@[simp] theorem State.advance_DT (s : State) (n : Nat) : (s.advance n).DT = s.DT := rfl
@[simp] theorem State.advance_ST (s : State) (n : Nat) : (s.advance n).ST = s.ST := rfl
@[simp] theorem State.advance_keys (s : State) (n : Nat) : (s.advance n).keys = s.keys := rfl
@[simp] theorem State.advance_fb (s : State) (n : Nat) : (s.advance n).fb = s.fb := rfl
@[simp] theorem State.advance_redraw (s : State) (n : Nat) : (s.advance n).redraw = s.redraw := rfl
@[simp] theorem State.advance_status (s : State) (n : Nat) : (s.advance n).status = s.status := rfl
@[simp] theorem State.advance_params (s : State) (n : Nat) : (s.advance n).params = s.params := rfl
@[simp] theorem State.advance_phase (s : State) (n : Nat) : (s.advance n).phase = s.phase := rfl
@[simp] theorem State.advance_cycle (s : State) (n : Nat) : (s.advance n).cycle = s.cycle := rfl

@[simp] theorem State.tick_mem (s : State) : (s.tick).mem = s.mem := rfl
@[simp] theorem State.tick_V (s : State) : (s.tick).V = s.V := rfl
@[simp] theorem State.tick_I (s : State) : (s.tick).I = s.I := rfl
@[simp] theorem State.tick_pc (s : State) : (s.tick).pc = s.pc := rfl
@[simp] theorem State.tick_stack (s : State) : (s.tick).stack = s.stack := rfl
@[simp] theorem State.tick_sp (s : State) : (s.tick).sp = s.sp := rfl
@[simp] theorem State.tick_keys (s : State) : (s.tick).keys = s.keys := rfl
@[simp] theorem State.tick_fb (s : State) : (s.tick).fb = s.fb := rfl
@[simp] theorem State.tick_redraw (s : State) : (s.tick).redraw = s.redraw := rfl
@[simp] theorem State.tick_status (s : State) : (s.tick).status = s.status := rfl
@[simp] theorem State.tick_params (s : State) : (s.tick).params = s.params := rfl
@[simp] theorem State.tick_phase (s : State) : (s.tick).phase = s.phase := rfl
@[simp] theorem State.tick_cycle (s : State) : (s.tick).cycle = s.cycle := rfl

@[simp] theorem State.endCycle_mem (s : State) : (s.endCycle).mem = s.mem := rfl
@[simp] theorem State.endCycle_V (s : State) : (s.endCycle).V = s.V := rfl
@[simp] theorem State.endCycle_I (s : State) : (s.endCycle).I = s.I := rfl
@[simp] theorem State.endCycle_pc (s : State) : (s.endCycle).pc = s.pc := rfl
@[simp] theorem State.endCycle_stack (s : State) : (s.endCycle).stack = s.stack := rfl
@[simp] theorem State.endCycle_sp (s : State) : (s.endCycle).sp = s.sp := rfl
@[simp] theorem State.endCycle_keys (s : State) : (s.endCycle).keys = s.keys := rfl
@[simp] theorem State.endCycle_fb (s : State) : (s.endCycle).fb = s.fb := rfl
@[simp] theorem State.endCycle_redraw (s : State) : (s.endCycle).redraw = s.redraw := rfl
@[simp] theorem State.endCycle_status (s : State) : (s.endCycle).status = s.status := rfl
@[simp] theorem State.endCycle_params (s : State) : (s.endCycle).params = s.params := rfl

@[simp] theorem State.setKeys_mem (s : State) (keys : Vector Bool 16) : (s.setKeys keys).mem = s.mem := rfl
@[simp] theorem State.setKeys_V (s : State) (keys : Vector Bool 16) : (s.setKeys keys).V = s.V := rfl
@[simp] theorem State.setKeys_I (s : State) (keys : Vector Bool 16) : (s.setKeys keys).I = s.I := rfl
@[simp] theorem State.setKeys_pc (s : State) (keys : Vector Bool 16) : (s.setKeys keys).pc = s.pc := rfl
@[simp] theorem State.setKeys_stack (s : State) (keys : Vector Bool 16) : (s.setKeys keys).stack = s.stack := rfl
@[simp] theorem State.setKeys_sp (s : State) (keys : Vector Bool 16) : (s.setKeys keys).sp = s.sp := rfl
@[simp] theorem State.setKeys_DT (s : State) (keys : Vector Bool 16) : (s.setKeys keys).DT = s.DT := rfl
@[simp] theorem State.setKeys_ST (s : State) (keys : Vector Bool 16) : (s.setKeys keys).ST = s.ST := rfl
@[simp] theorem State.setKeys_fb (s : State) (keys : Vector Bool 16) : (s.setKeys keys).fb = s.fb := rfl
@[simp] theorem State.setKeys_redraw (s : State) (keys : Vector Bool 16) : (s.setKeys keys).redraw = s.redraw := rfl
@[simp] theorem State.setKeys_status (s : State) (keys : Vector Bool 16) : (s.setKeys keys).status = s.status := rfl
@[simp] theorem State.setKeys_params (s : State) (keys : Vector Bool 16) : (s.setKeys keys).params = s.params := rfl
@[simp] theorem State.setKeys_phase (s : State) (keys : Vector Bool 16) : (s.setKeys keys).phase = s.phase := rfl
@[simp] theorem State.setKeys_cycle (s : State) (keys : Vector Bool 16) : (s.setKeys keys).cycle = s.cycle := rfl

@[simp] theorem State.ackRedraw_mem (s : State) : (s.ackRedraw).mem = s.mem := rfl
@[simp] theorem State.ackRedraw_V (s : State) : (s.ackRedraw).V = s.V := rfl
@[simp] theorem State.ackRedraw_I (s : State) : (s.ackRedraw).I = s.I := rfl
@[simp] theorem State.ackRedraw_pc (s : State) : (s.ackRedraw).pc = s.pc := rfl
@[simp] theorem State.ackRedraw_stack (s : State) : (s.ackRedraw).stack = s.stack := rfl
@[simp] theorem State.ackRedraw_sp (s : State) : (s.ackRedraw).sp = s.sp := rfl
@[simp] theorem State.ackRedraw_DT (s : State) : (s.ackRedraw).DT = s.DT := rfl
@[simp] theorem State.ackRedraw_ST (s : State) : (s.ackRedraw).ST = s.ST := rfl
@[simp] theorem State.ackRedraw_keys (s : State) : (s.ackRedraw).keys = s.keys := rfl
@[simp] theorem State.ackRedraw_fb (s : State) : (s.ackRedraw).fb = s.fb := rfl
@[simp] theorem State.ackRedraw_status (s : State) : (s.ackRedraw).status = s.status := rfl
@[simp] theorem State.ackRedraw_params (s : State) : (s.ackRedraw).params = s.params := rfl
@[simp] theorem State.ackRedraw_phase (s : State) : (s.ackRedraw).phase = s.phase := rfl
@[simp] theorem State.ackRedraw_cycle (s : State) : (s.ackRedraw).cycle = s.cycle := rfl

@[simp] theorem State.write_V (s : State) (a : Nat) (v : Byte) : (s.write a v).V = s.V := by
  unfold State.write; split <;> rfl
@[simp] theorem State.write_I (s : State) (a : Nat) (v : Byte) : (s.write a v).I = s.I := by
  unfold State.write; split <;> rfl
@[simp] theorem State.write_pc (s : State) (a : Nat) (v : Byte) : (s.write a v).pc = s.pc := by
  unfold State.write; split <;> rfl
@[simp] theorem State.write_stack (s : State) (a : Nat) (v : Byte) : (s.write a v).stack = s.stack := by
  unfold State.write; split <;> rfl
@[simp] theorem State.write_sp (s : State) (a : Nat) (v : Byte) : (s.write a v).sp = s.sp := by
  unfold State.write; split <;> rfl
@[simp] theorem State.write_DT (s : State) (a : Nat) (v : Byte) : (s.write a v).DT = s.DT := by
  unfold State.write; split <;> rfl
@[simp] theorem State.write_ST (s : State) (a : Nat) (v : Byte) : (s.write a v).ST = s.ST := by
  unfold State.write; split <;> rfl
@[simp] theorem State.write_keys (s : State) (a : Nat) (v : Byte) : (s.write a v).keys = s.keys := by
  unfold State.write; split <;> rfl
@[simp] theorem State.write_fb (s : State) (a : Nat) (v : Byte) : (s.write a v).fb = s.fb := by
  unfold State.write; split <;> rfl
@[simp] theorem State.write_redraw (s : State) (a : Nat) (v : Byte) : (s.write a v).redraw = s.redraw := by
  unfold State.write; split <;> rfl
@[simp] theorem State.write_status (s : State) (a : Nat) (v : Byte) : (s.write a v).status = s.status := by
  unfold State.write; split <;> rfl
@[simp] theorem State.write_params (s : State) (a : Nat) (v : Byte) : (s.write a v).params = s.params := by
  unfold State.write; split <;> rfl
@[simp] theorem State.write_phase (s : State) (a : Nat) (v : Byte) : (s.write a v).phase = s.phase := by
  unfold State.write; split <;> rfl
@[simp] theorem State.write_cycle (s : State) (a : Nat) (v : Byte) : (s.write a v).cycle = s.cycle := by
  unfold State.write; split <;> rfl

@[simp] theorem State.writeBytes_V (bytes : List Byte) (s : State) (a : Nat) :
    (s.writeBytes a bytes).V = s.V := by
  induction bytes generalizing s a with
  | nil => rfl
  | cons b rest ih => simp [State.writeBytes, ih]
@[simp] theorem State.writeBytes_I (bytes : List Byte) (s : State) (a : Nat) :
    (s.writeBytes a bytes).I = s.I := by
  induction bytes generalizing s a with
  | nil => rfl
  | cons b rest ih => simp [State.writeBytes, ih]
@[simp] theorem State.writeBytes_pc (bytes : List Byte) (s : State) (a : Nat) :
    (s.writeBytes a bytes).pc = s.pc := by
  induction bytes generalizing s a with
  | nil => rfl
  | cons b rest ih => simp [State.writeBytes, ih]
@[simp] theorem State.writeBytes_stack (bytes : List Byte) (s : State) (a : Nat) :
    (s.writeBytes a bytes).stack = s.stack := by
  induction bytes generalizing s a with
  | nil => rfl
  | cons b rest ih => simp [State.writeBytes, ih]
@[simp] theorem State.writeBytes_sp (bytes : List Byte) (s : State) (a : Nat) :
    (s.writeBytes a bytes).sp = s.sp := by
  induction bytes generalizing s a with
  | nil => rfl
  | cons b rest ih => simp [State.writeBytes, ih]
@[simp] theorem State.writeBytes_DT (bytes : List Byte) (s : State) (a : Nat) :
    (s.writeBytes a bytes).DT = s.DT := by
  induction bytes generalizing s a with
  | nil => rfl
  | cons b rest ih => simp [State.writeBytes, ih]
@[simp] theorem State.writeBytes_ST (bytes : List Byte) (s : State) (a : Nat) :
    (s.writeBytes a bytes).ST = s.ST := by
  induction bytes generalizing s a with
  | nil => rfl
  | cons b rest ih => simp [State.writeBytes, ih]
@[simp] theorem State.writeBytes_keys (bytes : List Byte) (s : State) (a : Nat) :
    (s.writeBytes a bytes).keys = s.keys := by
  induction bytes generalizing s a with
  | nil => rfl
  | cons b rest ih => simp [State.writeBytes, ih]
@[simp] theorem State.writeBytes_fb (bytes : List Byte) (s : State) (a : Nat) :
    (s.writeBytes a bytes).fb = s.fb := by
  induction bytes generalizing s a with
  | nil => rfl
  | cons b rest ih => simp [State.writeBytes, ih]
@[simp] theorem State.writeBytes_redraw (bytes : List Byte) (s : State) (a : Nat) :
    (s.writeBytes a bytes).redraw = s.redraw := by
  induction bytes generalizing s a with
  | nil => rfl
  | cons b rest ih => simp [State.writeBytes, ih]
@[simp] theorem State.writeBytes_status (bytes : List Byte) (s : State) (a : Nat) :
    (s.writeBytes a bytes).status = s.status := by
  induction bytes generalizing s a with
  | nil => rfl
  | cons b rest ih => simp [State.writeBytes, ih]
@[simp] theorem State.writeBytes_params (bytes : List Byte) (s : State) (a : Nat) :
    (s.writeBytes a bytes).params = s.params := by
  induction bytes generalizing s a with
  | nil => rfl
  | cons b rest ih => simp [State.writeBytes, ih]
@[simp] theorem State.writeBytes_phase (bytes : List Byte) (s : State) (a : Nat) :
    (s.writeBytes a bytes).phase = s.phase := by
  induction bytes generalizing s a with
  | nil => rfl
  | cons b rest ih => simp [State.writeBytes, ih]
@[simp] theorem State.writeBytes_cycle (bytes : List Byte) (s : State) (a : Nat) :
    (s.writeBytes a bytes).cycle = s.cycle := by
  induction bytes generalizing s a with
  | nil => rfl
  | cons b rest ih => simp [State.writeBytes, ih]

@[simp] theorem State.loadRegsFrom_mem (bytes : List Byte) (s : State) (i : Nat) :
    (s.loadRegsFrom i bytes).mem = s.mem := by
  induction bytes generalizing s i with
  | nil => rfl
  | cons b rest ih => simp [State.loadRegsFrom, ih]
@[simp] theorem State.loadRegsFrom_I (bytes : List Byte) (s : State) (i : Nat) :
    (s.loadRegsFrom i bytes).I = s.I := by
  induction bytes generalizing s i with
  | nil => rfl
  | cons b rest ih => simp [State.loadRegsFrom, ih]
@[simp] theorem State.loadRegsFrom_pc (bytes : List Byte) (s : State) (i : Nat) :
    (s.loadRegsFrom i bytes).pc = s.pc := by
  induction bytes generalizing s i with
  | nil => rfl
  | cons b rest ih => simp [State.loadRegsFrom, ih]
@[simp] theorem State.loadRegsFrom_stack (bytes : List Byte) (s : State) (i : Nat) :
    (s.loadRegsFrom i bytes).stack = s.stack := by
  induction bytes generalizing s i with
  | nil => rfl
  | cons b rest ih => simp [State.loadRegsFrom, ih]
@[simp] theorem State.loadRegsFrom_sp (bytes : List Byte) (s : State) (i : Nat) :
    (s.loadRegsFrom i bytes).sp = s.sp := by
  induction bytes generalizing s i with
  | nil => rfl
  | cons b rest ih => simp [State.loadRegsFrom, ih]
@[simp] theorem State.loadRegsFrom_DT (bytes : List Byte) (s : State) (i : Nat) :
    (s.loadRegsFrom i bytes).DT = s.DT := by
  induction bytes generalizing s i with
  | nil => rfl
  | cons b rest ih => simp [State.loadRegsFrom, ih]
@[simp] theorem State.loadRegsFrom_ST (bytes : List Byte) (s : State) (i : Nat) :
    (s.loadRegsFrom i bytes).ST = s.ST := by
  induction bytes generalizing s i with
  | nil => rfl
  | cons b rest ih => simp [State.loadRegsFrom, ih]
@[simp] theorem State.loadRegsFrom_keys (bytes : List Byte) (s : State) (i : Nat) :
    (s.loadRegsFrom i bytes).keys = s.keys := by
  induction bytes generalizing s i with
  | nil => rfl
  | cons b rest ih => simp [State.loadRegsFrom, ih]
@[simp] theorem State.loadRegsFrom_fb (bytes : List Byte) (s : State) (i : Nat) :
    (s.loadRegsFrom i bytes).fb = s.fb := by
  induction bytes generalizing s i with
  | nil => rfl
  | cons b rest ih => simp [State.loadRegsFrom, ih]
@[simp] theorem State.loadRegsFrom_redraw (bytes : List Byte) (s : State) (i : Nat) :
    (s.loadRegsFrom i bytes).redraw = s.redraw := by
  induction bytes generalizing s i with
  | nil => rfl
  | cons b rest ih => simp [State.loadRegsFrom, ih]
@[simp] theorem State.loadRegsFrom_status (bytes : List Byte) (s : State) (i : Nat) :
    (s.loadRegsFrom i bytes).status = s.status := by
  induction bytes generalizing s i with
  | nil => rfl
  | cons b rest ih => simp [State.loadRegsFrom, ih]
@[simp] theorem State.loadRegsFrom_params (bytes : List Byte) (s : State) (i : Nat) :
    (s.loadRegsFrom i bytes).params = s.params := by
  induction bytes generalizing s i with
  | nil => rfl
  | cons b rest ih => simp [State.loadRegsFrom, ih]
@[simp] theorem State.loadRegsFrom_phase (bytes : List Byte) (s : State) (i : Nat) :
    (s.loadRegsFrom i bytes).phase = s.phase := by
  induction bytes generalizing s i with
  | nil => rfl
  | cons b rest ih => simp [State.loadRegsFrom, ih]
@[simp] theorem State.loadRegsFrom_cycle (bytes : List Byte) (s : State) (i : Nat) :
    (s.loadRegsFrom i bytes).cycle = s.cycle := by
  induction bytes generalizing s i with
  | nil => rfl
  | cons b rest ih => simp [State.loadRegsFrom, ih]

/-! ## Accessors that depend on one field -/

theorem State.v_congr {s t : State} (h : t.V = s.V) (x : Reg) : t.v x = s.v x := by simp [State.v, h]

theorem State.read_congr {s t : State} (h : t.mem = s.mem) (hp : t.params = s.params) (a : Nat) : t.read a = s.read a := by
  simp [State.read, h, hp]

theorem State.key_congr {s t : State} (h : t.keys = s.keys) (k : Fin 16) : t.key k = s.key k := by simp [State.key, h]

@[simp] theorem State.setV_read (s : State) (x : Reg) (b : Byte) (a : Nat) : (s.setV x b).read a = s.read a := rfl
@[simp] theorem State.setV_key (s : State) (x : Reg) (b : Byte) (k : Fin 16) : (s.setV x b).key k = s.key k := rfl
@[simp] theorem State.setFlagThenV_read (s : State) (flag : Byte) (x : Reg) (b : Byte) (a : Nat) : (s.setFlagThenV flag x b).read a = s.read a := rfl
@[simp] theorem State.setFlagThenV_key (s : State) (flag : Byte) (x : Reg) (b : Byte) (k : Fin 16) : (s.setFlagThenV flag x b).key k = s.key k := rfl
@[simp] theorem State.setI_v (s : State) (n : Nat) (y : Reg) : (s.setI n).v y = s.v y := rfl
@[simp] theorem State.setI_read (s : State) (n : Nat) (a : Nat) : (s.setI n).read a = s.read a := rfl
@[simp] theorem State.setI_key (s : State) (n : Nat) (k : Fin 16) : (s.setI n).key k = s.key k := rfl
@[simp] theorem State.setPc_v (s : State) (w : Word) (y : Reg) : (s.setPc w).v y = s.v y := rfl
@[simp] theorem State.setPc_read (s : State) (w : Word) (a : Nat) : (s.setPc w).read a = s.read a := rfl
@[simp] theorem State.setPc_key (s : State) (w : Word) (k : Fin 16) : (s.setPc w).key k = s.key k := rfl
@[simp] theorem State.advance_v (s : State) (n : Nat) (y : Reg) : (s.advance n).v y = s.v y := rfl
@[simp] theorem State.advance_read (s : State) (n : Nat) (a : Nat) : (s.advance n).read a = s.read a := rfl
@[simp] theorem State.advance_key (s : State) (n : Nat) (k : Fin 16) : (s.advance n).key k = s.key k := rfl
@[simp] theorem State.tick_v (s : State) (y : Reg) : (s.tick).v y = s.v y := rfl
@[simp] theorem State.tick_read (s : State) (a : Nat) : (s.tick).read a = s.read a := rfl
@[simp] theorem State.tick_key (s : State) (k : Fin 16) : (s.tick).key k = s.key k := rfl
@[simp] theorem State.endCycle_v (s : State) (y : Reg) : (s.endCycle).v y = s.v y := rfl
@[simp] theorem State.endCycle_read (s : State) (a : Nat) : (s.endCycle).read a = s.read a := rfl
@[simp] theorem State.endCycle_key (s : State) (k : Fin 16) : (s.endCycle).key k = s.key k := rfl
@[simp] theorem State.setKeys_v (s : State) (keys : Vector Bool 16) (y : Reg) : (s.setKeys keys).v y = s.v y := rfl
@[simp] theorem State.setKeys_read (s : State) (keys : Vector Bool 16) (a : Nat) : (s.setKeys keys).read a = s.read a := rfl
@[simp] theorem State.ackRedraw_v (s : State) (y : Reg) : (s.ackRedraw).v y = s.v y := rfl
@[simp] theorem State.ackRedraw_read (s : State) (a : Nat) : (s.ackRedraw).read a = s.read a := rfl
@[simp] theorem State.ackRedraw_key (s : State) (k : Fin 16) : (s.ackRedraw).key k = s.key k := rfl
@[simp] theorem State.write_v (s : State) (a : Nat) (b : Byte) (y : Reg) : (s.write a b).v y = s.v y :=
  State.v_congr (by simp) y
@[simp] theorem State.writeBytes_v (bytes : List Byte) (s : State) (a : Nat) (y : Reg) :
    (s.writeBytes a bytes).v y = s.v y := State.v_congr (by simp) y
@[simp] theorem State.writeBytes_key (bytes : List Byte) (s : State) (a : Nat) (k : Fin 16) :
    (s.writeBytes a bytes).key k = s.key k := State.key_congr (by simp) k
@[simp] theorem State.loadRegsFrom_read (bytes : List Byte) (s : State) (i a : Nat) :
    (s.loadRegsFrom i bytes).read a = s.read a := State.read_congr (by simp) (by simp) a
@[simp] theorem State.loadRegsFrom_key (bytes : List Byte) (s : State) (i : Nat) (k : Fin 16) :
    (s.loadRegsFrom i bytes).key k = s.key k := State.key_congr (by simp) k

/-! ## What an update writes -/

theorem State.setV_v (s : State) (x : Reg) (b : Byte) (y : Reg) : (s.setV x b).v y = if y = x then b else s.v y := by
  simp only [State.v, State.setV, Vector.get_eq_getElem, Vector.getElem_set, Fin.ext_iff]
  simp only [eq_comm]

@[simp] theorem State.setV_v_same (s : State) (x : Reg) (b : Byte) : (s.setV x b).v x = b := by simp [State.setV_v]

@[simp] theorem State.setV_v_other {x y : Reg} (h : y ≠ x) (s : State) (b : Byte) : (s.setV x b).v y = s.v y := by
  simp [State.setV_v, h]

/-- The flag, then the result: the result stands in Vx also for x = 15 (R159). -/
@[simp] theorem State.setFlagThenV_v_result (s : State) (flag : Byte) (x : Reg) (b : Byte) :
    (s.setFlagThenV flag x b).v x = b := by simp [State.setFlagThenV]

theorem State.setFlagThenV_v_flag {x : Reg} (h : x ≠ vf) (s : State) (flag b : Byte) :
    (s.setFlagThenV flag x b).v vf = flag := by simp [State.setFlagThenV, h.symm]

theorem State.setFlagThenV_v_other {x y : Reg} (hx : y ≠ x) (hf : y ≠ vf) (s : State) (flag b : Byte) :
    (s.setFlagThenV flag x b).v y = s.v y := by simp [State.setFlagThenV, hx, hf]

@[simp] theorem State.setPc_pc (s : State) (w : Word) : (s.setPc w).pc = w := rfl

@[simp] theorem State.advance_pc (s : State) (n : Nat) : (s.advance n).pc = s.pc + BitVec.ofNat 16 n := by
  apply BitVec.eq_of_toNat_eq
  simp [State.advance, BitVec.toNat_add]

@[simp] theorem State.setI_I_toNat (s : State) (n : Nat) : (s.setI n).I.toNat = n % 0x1000 := by
  simp only [State.setI, BitVec.toNat_ofNat]
  omega

@[simp] theorem State.tick_DT (s : State) : s.tick.DT = tickDown s.DT := rfl
@[simp] theorem State.tick_ST (s : State) : s.tick.ST = tickDown s.ST := rfl
@[simp] theorem State.endCycle_DT (s : State) : s.endCycle.DT = tickDown s.DT := rfl
@[simp] theorem State.endCycle_ST (s : State) : s.endCycle.ST = tickDown s.ST := rfl
@[simp] theorem State.endCycle_phase (s : State) : s.endCycle.phase = .stepped := rfl
@[simp] theorem State.endCycle_cycle (s : State) : s.endCycle.cycle = s.cycle + 1 := rfl
@[simp] theorem State.setKeys_keys (s : State) (keys : Vector Bool 16) : (s.setKeys keys).keys = keys := rfl
@[simp] theorem State.ackRedraw_redraw (s : State) : s.ackRedraw.redraw = false := rfl

/-- A timer at 0 stays at 0; any other loses 1 (R280). -/
theorem tickDown_toNat (t : Byte) : (tickDown t).toNat = t.toNat - 1 := by
  unfold tickDown
  split
  · have := t.isLt
    rw [BitVec.toNat_sub]
    have h1 : (1 : Byte).toNat = 1 := rfl
    omega
  · omega

end Sys2Proof.Machine
end

