-- ==== Sys2Proof/Laws/Memory.lean ====
section
/-! SUPPORT. Memory: a read after a write, and that every memory operation keeps the canonical form. -/

namespace Sys2Proof.Machine

variable {font : Vector Byte 80}

theorem readCells_insertCell (a : Nat) (v : Byte) (cells : List Host.Cell) (b : Nat) :
    readCells font (insertCell a v cells) b = if b = a then v else readCells font cells b := by
  induction cells with
  | nil => simp [insertCell, readCells]
  | cons c rest ih =>
    obtain ⟨d, w⟩ := c
    unfold insertCell
    split
    · simp [readCells]
    · split
      · subst_vars
        by_cases h : b = d <;> simp [readCells, h]
      · by_cases h : b = d
        · have : b ≠ a := by omega
          simp [readCells, h, Ne.symm ‹¬a = d›]
        · simp [readCells, h, ih]

theorem readCells_filter (a : Nat) (cells : List Host.Cell) (b : Nat) :
    readCells font (cells.filter (fun c => c.1 ≠ a)) b = if b = a then resetByte font a else readCells font cells b := by
  induction cells with
  | nil => by_cases h : b = a <;> simp [readCells, h]
  | cons c rest ih =>
    obtain ⟨d, w⟩ := c
    by_cases hd : d = a
    · subst hd
      by_cases h : b = d <;> simp_all [readCells]
    · by_cases h : b = d
      · subst h; simp [readCells, hd]
      · simp_all [readCells]

/-- A read after a write, for every cell list. -/
theorem readCells_writeCells (cells : List Host.Cell) (a : Nat) (v : Byte) (b : Nat) :
    readCells font (writeCells font cells a v) b = if b = a then v else readCells font cells b := by
  unfold writeCells
  split
  · subst_vars; exact readCells_filter a cells b
  · exact readCells_insertCell a v cells b

/-- A read after a write inside memory: the byte written, at that address alone (R70). -/
theorem State.read_write {a : Nat} (h : a < memSize) (s : State) (v : Byte) (b : Nat) :
    (s.write a v).read b = if b = a then v else s.read b := by
  simp [State.read, State.write, h, readCells_writeCells]

/-- A write leaves every other address alone. -/
theorem State.read_write_other {a b : Nat} (h : b ≠ a) (s : State) (v : Byte) : (s.write a v).read b = s.read b := by
  unfold State.write
  split
  · simp [State.read, readCells_writeCells, h]
  · rfl

/-- Bytes written in ascending order read back, and every address outside them reads as before. -/
theorem State.read_writeBytes (bytes : List Byte) (s : State) (a : Nat) (h : a + bytes.length ≤ memSize) (b : Nat) :
    (s.writeBytes a bytes).read b = if a ≤ b ∧ b < a + bytes.length then bytes.getD (b - a) 0 else s.read b := by
  induction bytes generalizing s a with
  | nil => simp [State.writeBytes, show ¬(a ≤ b ∧ b < a) by omega]
  | cons v rest ih =>
    simp only [List.length_cons] at h
    rw [State.writeBytes, ih _ _ (by omega), State.read_write (by omega)]
    simp only [List.length_cons]
    by_cases hb : b = a
    · subst hb; simp [show ¬(b + 1 ≤ b) by omega]
    · by_cases hin : a + 1 ≤ b ∧ b < a + 1 + rest.length
      · obtain ⟨k, rfl⟩ : ∃ k, b = a + 1 + k := ⟨b - (a + 1), by omega⟩
        rw [if_pos hin, if_pos (by omega), show a + 1 + k - a = k + 1 by omega, List.getD_cons_succ,
          show a + 1 + k - (a + 1) = k by omega]
      · rw [if_neg hin, if_neg hb, if_neg (by omega)]

/-- Every address outside the written bytes reads as before, wherever they lie. -/
theorem State.read_writeBytes_outside (bytes : List Byte) (s : State) (a b : Nat)
    (h : b < a ∨ a + bytes.length ≤ b) : (s.writeBytes a bytes).read b = s.read b := by
  induction bytes generalizing s a with
  | nil => rfl
  | cons v rest ih =>
    simp only [List.length_cons] at h
    rw [State.writeBytes, ih _ _ (by omega), State.read_write_other (by omega)]

theorem State.readBytes_length (n : Nat) (s : State) (a : Nat) : (s.readBytes a n).length = n := by
  induction n generalizing a with
  | zero => rfl
  | succ n ih => simp [State.readBytes, ih]

theorem State.readBytes_getD (n : Nat) (s : State) (a k : Nat) (h : k < n) :
    (s.readBytes a n).getD k 0 = s.read (a + k) := by
  induction n generalizing a k with
  | zero => omega
  | succ n ih =>
    cases k with
    | zero => simp [State.readBytes]
    | succ k => rw [State.readBytes, List.getD_cons_succ, ih _ _ (by omega)]; congr 1; omega

/-! ## The canonical form -/

theorem Memory.wf_iff (cells : List Host.Cell) :
    Memory.wf font cells = true ↔
      cells.Pairwise (fun c d => c.1 < d.1) ∧ ∀ c ∈ cells, c.1 < memSize ∧ c.2 ≠ resetByte font c.1 := by
  simp [Memory.wf]

theorem mem_insertCell {a : Nat} {v : Byte} {cells : List Host.Cell} {c : Host.Cell} (h : c ∈ insertCell a v cells) :
    c = (a, v) ∨ c ∈ cells := by
  induction cells with
  | nil => simpa [insertCell] using h
  | cons d rest ih =>
    obtain ⟨b, w⟩ := d
    unfold insertCell at h
    split at h
    · simpa using h
    · split at h
      · simp only [List.mem_cons] at h ⊢; tauto
      · simp only [List.mem_cons] at h ⊢; tauto

theorem pairwise_insertCell (a : Nat) (v : Byte) (cells : List Host.Cell)
    (h : cells.Pairwise (fun c d => c.1 < d.1)) : (insertCell a v cells).Pairwise (fun c d => c.1 < d.1) := by
  induction cells with
  | nil => simp [insertCell]
  | cons d rest ih =>
    obtain ⟨b, w⟩ := d
    rw [List.pairwise_cons] at h
    unfold insertCell
    split
    · rename_i hab
      simp only [List.pairwise_cons, List.mem_cons, forall_eq_or_imp]
      exact ⟨⟨hab, fun c hc => Nat.lt_trans hab (h.1 c hc)⟩, h.1, h.2⟩
    · split
      · subst_vars; exact List.pairwise_cons.2 ⟨h.1, h.2⟩
      · refine List.pairwise_cons.2 ⟨fun c hc => ?_, ih h.2⟩
        rcases mem_insertCell hc with rfl | hc
        · simp only; omega
        · exact h.1 c hc

/-- A write inside memory keeps the canonical form. -/
theorem Memory.wf_writeCells {cells : List Host.Cell} (h : Memory.wf font cells = true) {a : Nat} (ha : a < memSize) (v : Byte) :
    Memory.wf font (writeCells font cells a v) = true := by
  rw [Memory.wf_iff] at h ⊢
  unfold writeCells
  split
  · exact ⟨h.1.filter _, fun c hc => h.2 c (List.mem_filter.1 hc).1⟩
  · rename_i hv
    refine ⟨pairwise_insertCell a v cells h.1, fun c hc => ?_⟩
    rcases mem_insertCell hc with rfl | hc
    · exact ⟨ha, hv⟩
    · exact h.2 c hc

theorem State.write_wf {s : State} (h : Memory.wf s.params.fontset s.mem = true) (a : Nat) (v : Byte) :
    Memory.wf (s.write a v).params.fontset (s.write a v).mem = true := by
  unfold State.write
  split
  · exact Memory.wf_writeCells h ‹_› v
  · exact h

theorem State.writeBytes_wf (bytes : List Byte) {s : State} (h : Memory.wf s.params.fontset s.mem = true) (a : Nat) :
    Memory.wf (s.writeBytes a bytes).params.fontset (s.writeBytes a bytes).mem = true := by
  induction bytes generalizing s a with
  | nil => exact h
  | cons v rest ih => exact ih (State.write_wf h a v) (a + 1)

theorem reset_memory_wf (p : Params) : Memory.wf p.fontset (State.resetWith p).mem = true := rfl

end Sys2Proof.Machine
end

