-- ==== Sys2Proof/Laws/Operands.lean ====
section
/-! SUPPORT. The operand forms: register ranges, key indices, the choice of a pressed key, the flags. -/

namespace Sys2Proof.Machine

theorem State.regsFrom_length (n : Nat) (s : State) (i : Nat) : (s.regsFrom i n).length = n := by
  induction n generalizing i with
  | zero => rfl
  | succ n ih => simp [State.regsFrom, ih]

theorem State.regsFrom_getD (n : Nat) (s : State) (i k : Nat) (h : k < n) :
    (s.regsFrom i n).getD k 0 = s.v (Fin.ofNat 16 (i + k)) := by
  induction n generalizing i k with
  | zero => omega
  | succ n ih =>
    cases k with
    | zero => simp [State.regsFrom]
    | succ k => rw [State.regsFrom, List.getD_cons_succ, ih _ _ (by omega)]; congr 2; omega

@[simp] theorem State.regsUpTo_length (s : State) (x : Reg) : (s.regsUpTo x).length = x.val + 1 :=
  State.regsFrom_length _ _ _

/-- FX55 stores V0..Vx, register k as byte k (R204). -/
theorem State.regsUpTo_getD (s : State) (x i : Reg) (h : i ≤ x) : (s.regsUpTo x).getD i.val 0 = s.v i := by
  have hle : i.val ≤ x.val := h
  rw [State.regsUpTo, State.regsFrom_getD _ _ _ _ (by omega)]
  congr 1
  ext
  simp [Fin.ofNat, Nat.mod_eq_of_lt i.isLt]

/-- FX65 loads byte k into register k, and no other register changes (R205). -/
theorem State.loadRegsFrom_v (bytes : List Byte) (s : State) (i : Nat) (h : i + bytes.length ≤ 16) (y : Reg) :
    (s.loadRegsFrom i bytes).v y = if i ≤ y.val ∧ y.val < i + bytes.length then bytes.getD (y.val - i) 0 else s.v y := by
  induction bytes generalizing s i with
  | nil => simp [State.loadRegsFrom, show ¬(i ≤ y.val ∧ y.val < i) by omega]
  | cons b rest ih =>
    simp only [List.length_cons] at h
    have hi : (Fin.ofNat 16 i).val = i := Nat.mod_eq_of_lt (by omega)
    rw [State.loadRegsFrom, ih _ _ (by omega), State.setV_v]
    simp only [List.length_cons, Fin.ext_iff, hi]
    by_cases hy : y.val = i
    · simp [hy, show ¬(i + 1 ≤ i) by omega]
    · by_cases hin : i + 1 ≤ y.val ∧ y.val < i + 1 + rest.length
      · rw [if_pos hin, if_pos (by omega), show y.val - i = (y.val - (i + 1)) + 1 by omega, List.getD_cons_succ]
      · rw [if_neg hin, if_neg hy, if_neg (by omega)]

/-- A register in 0..15 is a key index. -/
theorem keyIndex_of_lt {vx : Byte} {k : Fin 16} (h : vx.toNat = k.val) : keyIndex vx = some k := by
  have hk := k.isLt
  unfold keyIndex
  rw [dif_pos (by omega)]
  exact congrArg some (Fin.ext h)

/-- A register above 15 is not (R265). -/
theorem keyIndex_of_gt {vx : Byte} (h : vx.toNat > 15) : keyIndex vx = none := dif_neg (by omega)

theorem mem_pressedKeys (keys : Vector Bool 16) (k : Fin 16) : k ∈ pressedKeys keys ↔ keys.get k = true := by
  simp [pressedKeys]

/-- `fx0a_select` answers nothing when no key is pressed (R223). -/
theorem selectKey_none {keys : Vector Bool 16} (h : ∀ k, keys.get k = false) : selectKey keys = none := by
  have hp : pressedKeys keys = [] :=
    List.eq_nil_iff_forall_not_mem.2 (fun k hk => by simp [mem_pressedKeys, h] at hk)
  simp [selectKey, hp]

/-- Its one constraint: the key it answers is pressed (R224). -/
theorem selectKey_pressed {keys : Vector Bool 16} {k : Fin 16} (h : selectKey keys = some k) : keys.get k = true :=
  (mem_pressedKeys keys k).1 (List.mem_of_getElem? h)

/-- It answers a key whenever one is pressed (R224). -/
theorem selectKey_some {keys : Vector Bool 16} {k : Fin 16} (h : keys.get k = true) : ∃ j, selectKey keys = some j := by
  have hk := (mem_pressedKeys keys k).2 h
  have hpos : 0 < (pressedKeys keys).length := List.length_pos_of_mem hk
  exact ⟨_, List.getElem?_eq_getElem (Nat.mod_lt _ hpos)⟩

end Sys2Proof.Machine
end

