-- ==== Sys2Proof/Laws/Ops.lean ====
section
/-! SUPPORT. The shared operations of the cycle, each said once. -/

namespace Sys2Proof.Machine

@[simp] theorem done_eq (s : State) : done s = .next (s.advance 2) := rfl

@[simp] theorem raise_eq (kind : FaultKind) (opcode : Option Word) (addr : Option Nat) (s : State) :
    raise kind opcode addr s = .next { s with status := .faulted ⟨kind, s.pc, opcode, addr⟩ } := rfl

/-- The data-access check passes exactly when every address is inside memory. -/
theorem lowestOutOfRange_none {a n : Nat} : lowestOutOfRange a n = none ↔ n = 0 ∨ a + n ≤ memSize := by
  unfold lowestOutOfRange
  split <;> simp_all

theorem withAccess_inside (i : Instr) {n : Nat} {s : State} (go : Result) (h : n = 0 ∨ s.I.toNat + n ≤ memSize) :
    withAccess i n s go = go := by simp [withAccess, lowestOutOfRange_none.2 h]

/-- When it fails with I inside memory, the address reported is 0x1000, the lowest one outside (R68, R263). -/
theorem withAccess_outside (i : Instr) {n : Nat} {s : State} (go : Result) (_ : n ≠ 0)
    (hI : s.I.toNat ≤ 0xFFF) (h : s.I.toNat + n > memSize) :
    withAccess i n s go =
      .next { s with status := .faulted ⟨.memOutOfRange, s.pc, some (encode i), some 0x1000⟩ } := by
  have hm : memSize = 0x1000 := rfl
  have hmax : max s.I.toNat memSize = 0x1000 := by omega
  unfold withAccess lowestOutOfRange
  rw [if_neg (by omega), hmax]
  rfl

/-- Whatever the check finds: the access goes on, or one record is written and nothing else. -/
theorem withAccess_cases (i : Instr) (n : Nat) (s : State) (go : Result) :
    ((n = 0 ∨ s.I.toNat + n ≤ memSize) ∧ withAccess i n s go = go) ∨
    (n ≠ 0 ∧ s.I.toNat + n > memSize ∧ withAccess i n s go =
      .next { s with status := .faulted ⟨.memOutOfRange, s.pc, some (encode i), some (max s.I.toNat memSize)⟩ }) := by
  by_cases h : n = 0 ∨ s.I.toNat + n ≤ memSize
  · exact .inl ⟨h, withAccess_inside i go h⟩
  · refine .inr ⟨by tauto, by omega, ?_⟩
    simp [withAccess, lowestOutOfRange, h]

/-- The end of a cycle: a completed one is ticked, one that raised is left as it is, and stops pass through. -/
theorem finish_next {r : Result} {t : State} (h : finish r = .next t) :
    ∃ u, r = .next u ∧ ((u.status = .running ∧ t = u.endCycle) ∨ (u.status ≠ .running ∧ t = u)) := by
  cases r with
  | next u =>
    refine ⟨u, rfl, ?_⟩
    simp only [finish] at h
    split at h
    · exact .inl ⟨‹_›, by cases h; rfl⟩
    · exact .inr ⟨‹_›, by cases h; rfl⟩
  | fault f => cases h
  | refused f => cases h

/-- Everything a Step can do (R93, R267, R290): nothing, a fetch fault, or the end of a cycle that ran a word. -/
theorem step_cases {s t : State} (h : step s = .next t) :
    (s.status ≠ .running ∧ t = s) ∨
    (s.status = .running ∧ ∃ a, fetch s = .error a ∧
      t = { s with status := .faulted ⟨.fetchOutOfRange, s.pc, none, some a⟩ }) ∨
    (s.status = .running ∧ ∃ w u, fetch s = .ok w ∧ runWord w s = .next u ∧
      ((u.status = .running ∧ t = u.endCycle) ∨ (u.status ≠ .running ∧ t = u))) := by
  unfold step instructionCycle at h
  split at h
  · rename_i hs
    cases hf : fetch s with
    | error a =>
      rw [hf] at h
      simp only [raise_eq] at h
      cases h
      exact .inr (.inl ⟨hs, a, rfl, rfl⟩)
    | ok w =>
      rw [hf] at h
      obtain ⟨u, hu, hc⟩ := finish_next h
      exact .inr (.inr ⟨hs, w, u, rfl, hu, hc⟩)
  · cases h
    exact .inl ⟨‹_›, rfl⟩

/-- A word that decodes is run as its instruction. -/
theorem runWord_ok {w : Word} {i : Instr} (h : decodeWord w = .ok i) (s : State) : runWord w s = exec i s := by
  simp [runWord, h]

/-- What a word that does not decode does (R90, D5): UnknownOpcode, or, in family 0 under the other policy, pc + 2. -/
theorem runWord_error {w : Word} {e : DecodeError} (h : decodeWord w = .error e) (s : State) :
    runWord w s = if s.params.sysPolicy = .nop ∧ familyOf w = 0 then .next (s.advance 2)
      else .next { s with status := .faulted ⟨.unknownOpcode, s.pc, some w, none⟩ } := by
  simp [runWord, h, unknownWord]

theorem fetch_ok {s : State} (h : s.pc.toNat ≤ 0xFFE) :
    fetch s = .ok (wordOfBytes (s.read s.pc.toNat) (s.read (s.pc.toNat + 1))) := if_pos h

theorem fetch_ok_iff {s : State} {w : Word} (h : fetch s = .ok w) :
    s.pc.toNat ≤ 0xFFE ∧ w = wordOfBytes (s.read s.pc.toNat) (s.read (s.pc.toNat + 1)) := by
  unfold fetch at h
  split at h
  · exact ⟨‹_›, by cases h; rfl⟩
  · cases h

theorem fetch_error_iff {s : State} {a : Nat} (h : fetch s = .error a) :
    s.pc.toNat > 0xFFE ∧ a = if s.pc.toNat > 0xFFF then s.pc.toNat else 0x1000 := by
  unfold fetch at h
  split at h
  · cases h
  · exact ⟨by omega, by cases h; rfl⟩

end Sys2Proof.Machine
end

