-- ==== Sys2Proof/Laws/Draw.lean ====
section
/-! SUPPORT. Drawing: one toggled pixel, and a sprite as the list of the pixels its set bits land on, no pixel twice
(R240, R242). -/

namespace Sys2Proof.Machine

/-- Toggling inverts one pixel and no other. -/
theorem pixelAt_togglePixel (fb : Framebuffer) (x x' : Fin 64) (y y' : Fin 32) :
    pixelAt (togglePixel fb x y) x' y' = if x' = x ∧ y' = y then !pixelAt fb x y else pixelAt fb x' y' := by
  simp only [pixelAt, togglePixel, Vector.get_eq_getElem, Vector.getElem_set]
  by_cases hy : y' = y
  · subst hy
    simp only [if_true, BitVec.getLsbD_xor, BitVec.getLsbD_twoPow]
    by_cases hx : x' = x
    · subst hx; simp
    · have : x.val ≠ x'.val := fun h => hx (Fin.ext h.symm)
      simp [hx, this]
  · have : y.val ≠ y'.val := fun h => hy (Fin.ext h.symm)
    simp [hy, this]

/-- Framebuffers with the same pixels are the same. -/
theorem framebuffer_ext {f g : Framebuffer} (h : ∀ x y, pixelAt f x y = pixelAt g x y) : f = g := by
  refine Vector.ext fun i hi => BitVec.eq_of_getLsbD_eq fun j hj => ?_
  exact h ⟨j, hj⟩ ⟨i, hi⟩

/-- The effect of one set sprite bit on its pixel (R240). -/
def toggleStep (acc : Framebuffer × Bool) (p : Fin 64 × Fin 32) : Framebuffer × Bool :=
  (togglePixel acc.1 p.1 p.2, acc.2 || pixelAt acc.1 p.1 p.2)

/-- The pixels the set bits of one sprite row land on. -/
def rowHits (vx vy : Byte) (r : Nat) (b : Byte) : List (Fin 64 × Fin 32) :=
  ((List.range 8).filter (spriteBit b)).map (fun c => (columnOf vx c, rowOf vy r))

/-- The pixels the set bits of the sprite rows from row `r` down land on. -/
def spriteHits (vx vy : Byte) (r : Nat) : List Byte → List (Fin 64 × Fin 32)
  | [] => []
  | b :: rest => rowHits vx vy r b ++ spriteHits vx vy (r + 1) rest

theorem drawRow_eq (vx vy : Byte) (r : Nat) (b : Byte) (acc : Framebuffer × Bool) :
    drawRow vx vy r b acc = (rowHits vx vy r b).foldl toggleStep acc := by
  rw [rowHits, List.foldl_map, List.foldl_filter]
  rfl

theorem drawRows_eq (bytes : List Byte) (vx vy : Byte) (r : Nat) (acc : Framebuffer × Bool) :
    drawRows vx vy r acc bytes = (spriteHits vx vy r bytes).foldl toggleStep acc := by
  induction bytes generalizing r acc with
  | nil => rfl
  | cons b rest ih => rw [drawRows, ih, drawRow_eq, spriteHits, List.foldl_append]

/-- Toggling a list of pixels, none of them twice: each pixel of the list is inverted, and a collision is recorded when one
of them was set. -/
theorem foldl_toggleStep (hits : List (Fin 64 × Fin 32)) (hnd : hits.Nodup) (acc : Framebuffer × Bool) :
    (∀ x y, pixelAt (hits.foldl toggleStep acc).1 x y = (pixelAt acc.1 x y ^^ decide ((x, y) ∈ hits))) ∧
    (hits.foldl toggleStep acc).2 = (acc.2 || hits.any (fun p => pixelAt acc.1 p.1 p.2)) := by
  induction hits generalizing acc with
  | nil => simp
  | cons p rest ih =>
    obtain ⟨px, py⟩ := p
    rw [List.nodup_cons] at hnd
    obtain ⟨h1, h2⟩ := ih hnd.2 (toggleStep acc (px, py))
    simp only [List.foldl_cons]
    constructor
    · intro x y
      rw [h1]
      simp only [toggleStep, pixelAt_togglePixel]
      by_cases h : x = px ∧ y = py
      · obtain ⟨rfl, rfl⟩ := h
        simp [hnd.1]
      · have : ¬((x, y) = (px, py)) := by simpa using h
        simp [h]
    · rw [h2]
      simp only [toggleStep, List.any_cons, Bool.or_assoc]
      have hsame : ∀ q ∈ rest, pixelAt (togglePixel acc.1 px py) q.1 q.2 = pixelAt acc.1 q.1 q.2 := by
        intro q hq
        rw [pixelAt_togglePixel, if_neg]
        rintro ⟨h3, h4⟩
        exact hnd.1 (by rw [← h3, ← h4]; exact hq)
      congr 2
      rw [Bool.eq_iff_iff, List.any_eq_true, List.any_eq_true]
      exact exists_congr fun q => and_congr_right fun hq => by rw [hsame q hq]

/-- A pixel is hit exactly when a set bit of some row lands on it, bit 7 leftmost, each axis wrapping by itself. -/
theorem mem_spriteHits (bytes : List Byte) (vx vy : Byte) (r : Nat) (px : Fin 64) (py : Fin 32) :
    (px, py) ∈ spriteHits vx vy r bytes ↔ ∃ k c : Nat, k < bytes.length ∧ c ≤ 7 ∧
      (bytes.getD k 0).getLsbD (7 - c) = true ∧
      px.val = (vx.toNat + c) % 64 ∧ py.val = (vy.toNat + (r + k)) % 32 := by
  induction bytes generalizing r with
  | nil => simp [spriteHits]
  | cons b rest ih =>
    rw [spriteHits, List.mem_append, ih]
    have hrow : (px, py) ∈ rowHits vx vy r b ↔ ∃ c : Nat, c ≤ 7 ∧ b.getLsbD (7 - c) = true ∧
        px.val = (vx.toNat + c) % 64 ∧ py.val = (vy.toNat + r) % 32 := by
      simp only [rowHits, List.mem_map, List.mem_filter, List.mem_range, Prod.mk.injEq, spriteBit]
      constructor
      · rintro ⟨c, ⟨hc, hb⟩, rfl, rfl⟩
        exact ⟨c, by omega, hb, rfl, rfl⟩
      · rintro ⟨c, hc, hb, hx, hy⟩
        exact ⟨c, ⟨by omega, hb⟩, Fin.ext hx.symm, Fin.ext hy.symm⟩
    rw [hrow]
    constructor
    · rintro (⟨c, hc, hb, hx, hy⟩ | ⟨k, c, hk, hc, hb, hx, hy⟩)
      · exact ⟨0, c, by simp, hc, hb, hx, hy⟩
      · exact ⟨k + 1, c, by simpa using hk, hc, by simpa using hb, hx, by rw [hy]; congr 1; omega⟩
    · rintro ⟨k, c, hk, hc, hb, hx, hy⟩
      cases k with
      | zero => exact .inl ⟨c, hc, hb, hx, hy⟩
      | succ k => exact .inr ⟨k, c, by simpa using hk, hc, by simpa using hb, hx, by rw [hy]; congr 1; omega⟩

/-- No two sprite pixels land on one framebuffer bit: a sprite is at most 8 wide and 15 tall (R242). -/
theorem spriteHits_nodup (bytes : List Byte) (vx vy : Byte) (r : Nat) (h : bytes.length ≤ 32) :
    (spriteHits vx vy r bytes).Nodup := by
  induction bytes generalizing r with
  | nil => simp [spriteHits]
  | cons b rest ih =>
    simp only [List.length_cons] at h
    rw [spriteHits, List.nodup_append]
    refine ⟨?_, ih _ (by omega), ?_⟩
    · refine List.Nodup.map_on ?_ ((List.nodup_range).filter _)
      intro c hc d hd hcd
      simp only [List.mem_filter, List.mem_range] at hc hd
      have : (vx.toNat + c) % 64 = (vx.toNat + d) % 64 := congrArg (fun p => p.1.val) hcd
      omega
    · intro p hp q hq hpq
      subst hpq
      obtain ⟨px, py⟩ := p
      simp only [rowHits, List.mem_map, List.mem_filter, Prod.mk.injEq] at hp
      obtain ⟨c, -, -, hy⟩ := hp
      obtain ⟨k, d, hk, -, -, -, hy'⟩ := (mem_spriteHits rest vx vy (r + 1) px py).1 hq
      have hy0 : py.val = (vy.toNat + r) % 32 := by rw [← hy]; rfl
      omega

end Sys2Proof.Machine
end

