-- ==== Sys2Proof/Laws/PerInstr.lean ====
section
/-! SUPPORT. The family EncodesRow: the word of an instruction matches the match and mask of its opcode-table row (R87). -/

namespace Sys2Proof.Laws.EncodesRow

/-- The word of `i` is of the row that spec/opcode_table.json gives `i`. -/
def Statement (i : Instr) : Prop := encode i &&& i.row.mask = i.row.pattern

theorem of_F000 {w p : Word} (h : w.toNat / 4096 * 4096 = p.toNat) : w &&& 0xF000#16 = p :=
  BitVec.eq_of_toNat_eq ((and_mask_F000 w).trans h)

theorem of_F00F {w p : Word} (h : w.toNat / 4096 * 4096 + w.toNat % 16 = p.toNat) : w &&& 0xF00F#16 = p :=
  BitVec.eq_of_toNat_eq ((and_mask_F00F w).trans h)

theorem of_F0FF {w p : Word} (h : w.toNat / 4096 * 4096 + w.toNat % 256 = p.toNat) : w &&& 0xF0FF#16 = p :=
  BitVec.eq_of_toNat_eq ((and_mask_F0FF w).trans h)

theorem cls : Statement .cls := rfl

theorem ret : Statement .ret := rfl

theorem jp (nnn : Addr) : Statement (.jp nnn) := of_F000 (by
  rw [encode_toNat]; show _ = BitVec.toNat _; simp only [Instr.row, BitVec.ofNat_eq_ofNat, BitVec.reduceToNat]; omega)

theorem call (nnn : Addr) : Statement (.call nnn) := of_F000 (by
  rw [encode_toNat]; show _ = BitVec.toNat _; simp only [Instr.row, BitVec.ofNat_eq_ofNat, BitVec.reduceToNat]; omega)

theorem seImm (x : Reg) (nn : Byte) : Statement (.seImm x nn) := of_F000 (by
  rw [encode_toNat]; show _ = BitVec.toNat _; simp only [Instr.row, BitVec.ofNat_eq_ofNat, BitVec.reduceToNat]; omega)

theorem sneImm (x : Reg) (nn : Byte) : Statement (.sneImm x nn) := of_F000 (by
  rw [encode_toNat]; show _ = BitVec.toNat _; simp only [Instr.row, BitVec.ofNat_eq_ofNat, BitVec.reduceToNat]; omega)

theorem seReg (x y : Reg) (ign : Nibble) : Statement (.seReg x y ign) := of_F000 (by
  rw [encode_toNat]; show _ = BitVec.toNat _; simp only [Instr.row, BitVec.ofNat_eq_ofNat, BitVec.reduceToNat]; omega)

theorem ldImm (x : Reg) (nn : Byte) : Statement (.ldImm x nn) := of_F000 (by
  rw [encode_toNat]; show _ = BitVec.toNat _; simp only [Instr.row, BitVec.ofNat_eq_ofNat, BitVec.reduceToNat]; omega)

theorem addImm (x : Reg) (nn : Byte) : Statement (.addImm x nn) := of_F000 (by
  rw [encode_toNat]; show _ = BitVec.toNat _; simp only [Instr.row, BitVec.ofNat_eq_ofNat, BitVec.reduceToNat]; omega)

theorem ldReg (x y : Reg) : Statement (.ldReg x y) := of_F00F (by
  rw [encode_toNat]; show _ = BitVec.toNat _; simp only [Instr.row, BitVec.ofNat_eq_ofNat, BitVec.reduceToNat]; omega)

theorem orReg (x y : Reg) : Statement (.orReg x y) := of_F00F (by
  rw [encode_toNat]; show _ = BitVec.toNat _; simp only [Instr.row, BitVec.ofNat_eq_ofNat, BitVec.reduceToNat]; omega)

theorem andReg (x y : Reg) : Statement (.andReg x y) := of_F00F (by
  rw [encode_toNat]; show _ = BitVec.toNat _; simp only [Instr.row, BitVec.ofNat_eq_ofNat, BitVec.reduceToNat]; omega)

theorem xorReg (x y : Reg) : Statement (.xorReg x y) := of_F00F (by
  rw [encode_toNat]; show _ = BitVec.toNat _; simp only [Instr.row, BitVec.ofNat_eq_ofNat, BitVec.reduceToNat]; omega)

theorem addReg (x y : Reg) : Statement (.addReg x y) := of_F00F (by
  rw [encode_toNat]; show _ = BitVec.toNat _; simp only [Instr.row, BitVec.ofNat_eq_ofNat, BitVec.reduceToNat]; omega)

theorem sub (x y : Reg) : Statement (.sub x y) := of_F00F (by
  rw [encode_toNat]; show _ = BitVec.toNat _; simp only [Instr.row, BitVec.ofNat_eq_ofNat, BitVec.reduceToNat]; omega)

theorem shr (x : Reg) (ign : Nibble) : Statement (.shr x ign) := of_F00F (by
  rw [encode_toNat]; show _ = BitVec.toNat _; simp only [Instr.row, BitVec.ofNat_eq_ofNat, BitVec.reduceToNat]; omega)

theorem subn (x y : Reg) : Statement (.subn x y) := of_F00F (by
  rw [encode_toNat]; show _ = BitVec.toNat _; simp only [Instr.row, BitVec.ofNat_eq_ofNat, BitVec.reduceToNat]; omega)

theorem shl (x : Reg) (ign : Nibble) : Statement (.shl x ign) := of_F00F (by
  rw [encode_toNat]; show _ = BitVec.toNat _; simp only [Instr.row, BitVec.ofNat_eq_ofNat, BitVec.reduceToNat]; omega)

theorem sneReg (x y : Reg) (ign : Nibble) : Statement (.sneReg x y ign) := of_F000 (by
  rw [encode_toNat]; show _ = BitVec.toNat _; simp only [Instr.row, BitVec.ofNat_eq_ofNat, BitVec.reduceToNat]; omega)

theorem ldI (nnn : Addr) : Statement (.ldI nnn) := of_F000 (by
  rw [encode_toNat]; show _ = BitVec.toNat _; simp only [Instr.row, BitVec.ofNat_eq_ofNat, BitVec.reduceToNat]; omega)

theorem jpV0 (nnn : Addr) : Statement (.jpV0 nnn) := of_F000 (by
  rw [encode_toNat]; show _ = BitVec.toNat _; simp only [Instr.row, BitVec.ofNat_eq_ofNat, BitVec.reduceToNat]; omega)

theorem rnd (x : Reg) (nn : Byte) : Statement (.rnd x nn) := of_F000 (by
  rw [encode_toNat]; show _ = BitVec.toNat _; simp only [Instr.row, BitVec.ofNat_eq_ofNat, BitVec.reduceToNat]; omega)

theorem drw (x y : Reg) (n : Nibble) : Statement (.drw x y n) := of_F000 (by
  rw [encode_toNat]; show _ = BitVec.toNat _; simp only [Instr.row, BitVec.ofNat_eq_ofNat, BitVec.reduceToNat]; omega)

theorem skp (x : Reg) : Statement (.skp x) := of_F0FF (by
  rw [encode_toNat]; show _ = BitVec.toNat _; simp only [Instr.row, BitVec.ofNat_eq_ofNat, BitVec.reduceToNat]; omega)

theorem sknp (x : Reg) : Statement (.sknp x) := of_F0FF (by
  rw [encode_toNat]; show _ = BitVec.toNat _; simp only [Instr.row, BitVec.ofNat_eq_ofNat, BitVec.reduceToNat]; omega)

theorem ldVxDt (x : Reg) : Statement (.ldVxDt x) := of_F0FF (by
  rw [encode_toNat]; show _ = BitVec.toNat _; simp only [Instr.row, BitVec.ofNat_eq_ofNat, BitVec.reduceToNat]; omega)

theorem ldVxK (x : Reg) : Statement (.ldVxK x) := of_F0FF (by
  rw [encode_toNat]; show _ = BitVec.toNat _; simp only [Instr.row, BitVec.ofNat_eq_ofNat, BitVec.reduceToNat]; omega)

theorem ldDtVx (x : Reg) : Statement (.ldDtVx x) := of_F0FF (by
  rw [encode_toNat]; show _ = BitVec.toNat _; simp only [Instr.row, BitVec.ofNat_eq_ofNat, BitVec.reduceToNat]; omega)

theorem ldStVx (x : Reg) : Statement (.ldStVx x) := of_F0FF (by
  rw [encode_toNat]; show _ = BitVec.toNat _; simp only [Instr.row, BitVec.ofNat_eq_ofNat, BitVec.reduceToNat]; omega)

theorem addI (x : Reg) : Statement (.addI x) := of_F0FF (by
  rw [encode_toNat]; show _ = BitVec.toNat _; simp only [Instr.row, BitVec.ofNat_eq_ofNat, BitVec.reduceToNat]; omega)

theorem ldF (x : Reg) : Statement (.ldF x) := of_F0FF (by
  rw [encode_toNat]; show _ = BitVec.toNat _; simp only [Instr.row, BitVec.ofNat_eq_ofNat, BitVec.reduceToNat]; omega)

theorem ldB (x : Reg) : Statement (.ldB x) := of_F0FF (by
  rw [encode_toNat]; show _ = BitVec.toNat _; simp only [Instr.row, BitVec.ofNat_eq_ofNat, BitVec.reduceToNat]; omega)

theorem stRegs (x : Reg) : Statement (.stRegs x) := of_F0FF (by
  rw [encode_toNat]; show _ = BitVec.toNat _; simp only [Instr.row, BitVec.ofNat_eq_ofNat, BitVec.reduceToNat]; omega)

theorem ldRegs (x : Reg) : Statement (.ldRegs x) := of_F0FF (by
  rw [encode_toNat]; show _ = BitVec.toNat _; simp only [Instr.row, BitVec.ofNat_eq_ofNat, BitVec.reduceToNat]; omega)

end Sys2Proof.Laws.EncodesRow
end

