-- ==== Sys2Proof/Tests/Slice0.lean ====
section
/-! SUPPORT. The model's own tests. Expected results come from spec/95_test_vectors.md (the id of a vector stands in the
comment) or from the rules by hand; words are written out bit by bit from the formats of R84. Then the checks of
WellFormed and of the canonical form on ill-formed terms, and a witness for the hypotheses of every statement. -/

namespace Sys2Proof.Tests

open Sys2Proof Sys2Proof.Machine

/-- The state after reset with a word where the next Step fetches. -/
def ready (w : Nat) : State := State.reset.withFetchWord 16 w

/-- A result is a next state with a property. -/
def after (r : Result) (p : State → Bool) : Bool :=
  match r with
  | .next t => p t
  | .fault _ => false
  | .refused _ => false

theorem of_after {r : Result} {p : State → Bool} (h : after r p = true) : ∃ t, r = .next t ∧ p t = true := by
  cases r with
  | next t => exact ⟨t, rfl, h⟩
  | fault e => cases e
  | refused e => cases h

/-- The record of a fault, when there is one. -/
def faultOf (t : State) : Option FaultRecord :=
  match t.status with
  | .running => none
  | .faulted r => some r
  | .loadFailed _ => none

/-- The framebuffer with one pixel set. -/
def onePixel (x : Fin 64) (y : Fin 32) : Framebuffer := togglePixel (Vector.replicate 32 0) x y

/-- The keys with one pressed. -/
def oneKey (k : Fin 16) : Vector Bool 16 := (Vector.replicate 16 false).set k.val true k.isLt

/-! ## Decoding words written out from the encodings -/

theorem test_decode_control_flow :
    decodeWord 0b0000000011100000 = .ok .cls ∧ decodeWord 0b0000000011101110 = .ok .ret ∧
    decodeWord 0b0001001000110100 = .ok (.jp 0x234) ∧ decodeWord 0b0010001100000000 = .ok (.call 0x300) ∧
    decodeWord 0b1011111111111111 = .ok (.jpV0 0xFFF) := by decide

theorem test_decode_skips :
    decodeWord 0b0011101000000101 = .ok (.seImm 0xA 0x05) ∧ decodeWord 0b0100101000000101 = .ok (.sneImm 0xA 0x05) ∧
    decodeWord 0b0101000100100000 = .ok (.seReg 1 2 0) ∧ decodeWord 0b1001000100101111 = .ok (.sneReg 1 2 0xF) ∧
    decodeWord 0b1110001110011110 = .ok (.skp 3) ∧ decodeWord 0b1110001110100001 = .ok (.sknp 3) := by decide

theorem test_decode_immediate :
    decodeWord 0b0110101001000010 = .ok (.ldImm 0xA 0x42) ∧ decodeWord 0b0111101011111111 = .ok (.addImm 0xA 0xFF) ∧
    decodeWord 0b1100001100001111 = .ok (.rnd 3 0x0F) := by decide

theorem test_decode_arithmetic :
    decodeWord 0b1000000100100000 = .ok (.ldReg 1 2) ∧ decodeWord 0b1000000100100001 = .ok (.orReg 1 2) ∧
    decodeWord 0b1000000100100010 = .ok (.andReg 1 2) ∧ decodeWord 0b1000000100100011 = .ok (.xorReg 1 2) ∧
    decodeWord 0b1000000100100100 = .ok (.addReg 1 2) ∧ decodeWord 0b1000000100100101 = .ok (.sub 1 2) ∧
    decodeWord 0b1000000100100110 = .ok (.shr 1 2) ∧ decodeWord 0b1000000100100111 = .ok (.subn 1 2) ∧
    decodeWord 0b1000000100101110 = .ok (.shl 1 2) := by decide

theorem test_decode_memory :
    decodeWord 0b1010001011110000 = .ok (.ldI 0x2F0) ∧ decodeWord 0b1111001100011110 = .ok (.addI 3) ∧
    decodeWord 0b1111000000101001 = .ok (.ldF 0) ∧ decodeWord 0b1111001000110011 = .ok (.ldB 2) ∧
    decodeWord 0b1111001001010101 = .ok (.stRegs 2) ∧ decodeWord 0b1111001001100101 = .ok (.ldRegs 2) := by decide

theorem test_decode_timers_draw :
    decodeWord 0b1111001100000111 = .ok (.ldVxDt 3) ∧ decodeWord 0b1111001000001010 = .ok (.ldVxK 2) ∧
    decodeWord 0b1111001100010101 = .ok (.ldDtVx 3) ∧ decodeWord 0b1111001100011000 = .ok (.ldStVx 3) ∧
    decodeWord 0b1101000100100101 = .ok (.drw 1 2 5) := by decide

/-- L1-14, AR29, AR30, DE1 to DE5, TI13: illegal words are rejected by name. -/
theorem test_decode_illegal :
    decodeWord 0x0000 = .error (.unknownOpcode 0x0000) ∧ decodeWord 0x0123 = .error (.unknownOpcode 0x0123) ∧
    decodeWord 0x01E0 = .error (.unknownOpcode 0x01E0) ∧ decodeWord 0x00E1 = .error (.unknownOpcode 0x00E1) ∧
    decodeWord 0x8128 = .error (.unknownOpcode 0x8128) ∧ decodeWord 0x812F = .error (.unknownOpcode 0x812F) ∧
    decodeWord 0xE09F = .error (.unknownOpcode 0xE09F) ∧ decodeWord 0xF0FF = .error (.unknownOpcode 0xF0FF) := by decide

/-- R80: exactly two bytes are consumed, the high one first; one byte alone is too few. -/
theorem test_decode_bytes :
    decodeBytes [0x12, 0x34, 0x56] = .ok (.jp 0x234, [0x56]) ∧ decodeBytes [0x12] = .error .truncated ∧
    decodeTableWord 16 0x1234 = some (.jp 0x234) ∧ decodeTableWord 16 0x8008 = none := by decide

/-- Encoding, on one word of each of the formats of R84. -/
theorem test_encode :
    encode .ret = 0x00EE ∧ encode (.call 0x300) = 0x2300 ∧ encode (.addImm 0xA 0xFF) = 0x7AFF ∧
    encode (.sub 1 2) = 0x8125 ∧ encode (.shl 1 2) = 0x812E ∧ encode (.drw 1 2 5) = 0xD125 ∧
    encode (.sknp 3) = 0xE3A1 := by decide

/-! ## Well-formedness refuses -/

theorem test_illegalWord_refused :
    legalWord 0x0000 = false ∧ legalWord 0x812F = false ∧ legalWord 0xE09F = false ∧ legalWord 0xF0FF = false := by decide

theorem test_uncanonical_refused :
    Instr.canonical (.seReg 1 2 5) = false ∧ Instr.canonical (.sneReg 1 2 0xF) = false ∧
    Instr.canonical (.shr 1 2) = false ∧ Instr.canonical (.shl 1 2) = false := by decide

theorem test_oversizedImage_refused : imageFits (List.replicate 3585 0) = false :=
  decide_eq_false (by rw [List.length_replicate]; decide)

/-- Out of order, twice the same address, outside memory, and equal to what is there unlisted. -/
theorem test_memoryWf_refuses :
    Memory.wf fontset [(0x301, 1), (0x300, 1)] = false ∧ Memory.wf fontset [(0x300, 1), (0x300, 2)] = false ∧
    Memory.wf fontset [(0x1000, 1)] = false ∧ Memory.wf fontset [(0x300, 0)] = false ∧
    Memory.wf fontset [(0x50, 0xF0)] = false := by decide

/-- Writing the reset contents back removes the entry (the first byte of glyph 0 is F0). -/
theorem test_memory_canonical :
    ((State.reset.write 0x50 0x11).write 0x50 0xF0).mem = [] ∧
    ((State.reset.write 0x301 2).write 0x300 1).mem = [(0x300, 1), (0x301, 2)] := by decide

/-! ## Control flow -/

/-- CF1. -/
theorem test_cls : after (step { ready 0x00E0 with fb := onePixel 63 31 })
    (fun t => t.fb == Vector.replicate 32 0 && t.redraw && t.pc == 0x202) = true := by decide

/-- CF3. -/
theorem test_ret : after (exec .ret { State.reset with pc := 0x300, sp := 1, stack := State.reset.stack.set 0 0x204 })
    (fun t => t.sp == 0 && t.pc == 0x206 && t.stack.get 0 == 0x204) = true := by decide

/-- CF4. -/
theorem test_ret_underflow : after (step (ready 0x00EE))
    (fun t => faultOf t == some ⟨.stackUnderflow, 0x200, some 0x00EE, none⟩ && t.sp == 0) = true := by decide

/-- CF7: a self-loop still ticks. -/
theorem test_jp : after (step { ready 0x1200 with DT := 3 }) (fun t => t.pc == 0x200 && t.DT == 2) = true := by decide

/-- CF11. -/
theorem test_call : after (exec (.call 0x300) { State.reset with pc := 0x204, sp := 15 })
    (fun t => t.sp == 16 && t.pc == 0x300 && t.stack.get 15 == 0x204) = true := by decide

/-- CF12. -/
theorem test_call_overflow : after (step { ready 0x2300 with sp := 16 })
    (fun t => faultOf t == some ⟨.stackOverflow, 0x200, some 0x2300, none⟩ && t.pc == 0x200) = true := by decide

/-- CF14: the sum is not wrapped at 12 bits, and the next fetch faults. -/
theorem test_jpV0 : after (step ((ready 0xBFFF).setV 0 0xFF))
    (fun t => t.pc == 0x10FE &&
      after (step t) (fun u => faultOf u == some ⟨.fetchOutOfRange, 0x10FE, none, some 0x10FE⟩)) = true := by decide

/-- CF8, DE7: pc 0xFFF reports address 0x1000. -/
theorem test_fetch_last_byte : after (step { State.reset with pc := 0xFFF })
    (fun t => faultOf t == some ⟨.fetchOutOfRange, 0xFFF, none, some 0x1000⟩) = true := by decide

/-- CF9: an odd pc fetches like any other. -/
theorem test_fetch_odd_pc : fetch (((State.reset.setPc 0x201).write 0x201 0x12).write 0x202 0x34) = .ok 0x1234 := by decide

/-! ## Skips -/

/-- SK1, SK2. -/
theorem test_seImm : after (step ((ready 0x3A05).setV 0xA 5)) (fun t => t.pc == 0x204) = true ∧
    after (step ((ready 0x3A05).setV 0xA 6)) (fun t => t.pc == 0x202) = true := by decide

/-- SK3, SK4. -/
theorem test_sneImm : after (step ((ready 0x4A05).setV 0xA 5)) (fun t => t.pc == 0x202) = true ∧
    after (step ((ready 0x4A05).setV 0xA 6)) (fun t => t.pc == 0x204) = true := by decide

/-- SK6, SK7. -/
theorem test_seReg : after (step (((ready 0x5120).setV 1 0x33).setV 2 0x34)) (fun t => t.pc == 0x202) = true ∧
    after (step (ready 0x5111)) (fun t => t.pc == 0x204) = true := by decide

/-- SK8, SK10. -/
theorem test_sneReg : after (step (((ready 0x9120).setV 1 1).setV 2 2)) (fun t => t.pc == 0x204) = true ∧
    after (step (((ready 0x912F).setV 1 1).setV 2 1)) (fun t => t.pc == 0x202) = true := by decide

/-- SK11, SK15. -/
theorem test_skp : after (step (({ ready 0xE39E with keys := oneKey 7 }).setV 3 7)) (fun t => t.pc == 0x204) = true ∧
    after (step ((ready 0xE39E).setV 3 0x10))
      (fun t => faultOf t == some ⟨.keyIndexOutOfRange, 0x200, some 0xE39E, some 0x10⟩) = true := by decide

/-- SK14, SK16. -/
theorem test_sknp : after (step (({ ready 0xE3A1 with keys := oneKey 7 }).setV 3 7)) (fun t => t.pc == 0x202) = true ∧
    after (step ((ready 0xE3A1).setV 3 0xFF))
      (fun t => faultOf t == some ⟨.keyIndexOutOfRange, 0x200, some 0xE3A1, some 0xFF⟩) = true := by decide

/-! ## Arithmetic -/

/-- AR1. -/
theorem test_ldImm : after (step (ready 0x6A42)) (fun t => t.v 0xA == 0x42 && t.pc == 0x202) = true := by decide

/-- AR3: wraps with no flag. -/
theorem test_addImm : after (step ((ready 0x7A01).setV 0xA 0xFF)) (fun t => t.v 0xA == 0 && t.v 0xF == 0) = true := by decide

/-- AR5. -/
theorem test_ldReg : after (step ((ready 0x8120).setV 2 0x77)) (fun t => t.v 1 == 0x77 && t.v 2 == 0x77) = true := by decide

/-- AR6: VF is kept. -/
theorem test_orReg : after (step ((((ready 0x8121).setV 1 0x0F).setV 2 0xF0).setV 0xF 5))
    (fun t => t.v 1 == 0xFF && t.v 0xF == 5) = true := by decide

/-- AR7. -/
theorem test_andReg : after (step (((ready 0x8122).setV 1 0x3C).setV 2 0x0F)) (fun t => t.v 1 == 0x0C) = true := by decide

/-- AR8, AR9. -/
theorem test_xorReg : after (step (((ready 0x8123).setV 1 0xFF).setV 2 0x0F)) (fun t => t.v 1 == 0xF0) = true ∧
    after (step ((ready 0x8113).setV 1 0x5A)) (fun t => t.v 1 == 0) = true := by decide

/-- L1-2, AR13: the result is written last. -/
theorem test_addReg : after (step (((ready 0x8124).setV 1 0xFF).setV 2 1)) (fun t => t.v 1 == 0 && t.v 0xF == 1) = true ∧
    after (step (((ready 0x8F24).setV 0xF 1).setV 2 0xFF)) (fun t => t.v 0xF == 0) = true := by decide

/-- AR14: the operand is the old VF. -/
theorem test_addReg_vf_operand : after (step (((ready 0x81F4).setV 1 0x10).setV 0xF 5))
    (fun t => t.v 1 == 0x15 && t.v 0xF == 0) = true := by decide

/-- L1-4, L1-5. -/
theorem test_sub : after (step (((ready 0x8125).setV 1 5).setV 2 3)) (fun t => t.v 1 == 2 && t.v 0xF == 1) = true ∧
    after (step (((ready 0x8125).setV 1 3).setV 2 5)) (fun t => t.v 1 == 0xFE && t.v 0xF == 0) = true := by decide

/-- AR15, AR20: equal operands give the flag 0 in both subtractions. -/
theorem test_sub_equal : after (step (((ready 0x8125).setV 1 7).setV 2 7)) (fun t => t.v 1 == 0 && t.v 0xF == 0) = true ∧
    after (step (((ready 0x8127).setV 1 9).setV 2 9)) (fun t => t.v 1 == 0 && t.v 0xF == 0) = true := by decide

/-- AR18, AR19. -/
theorem test_subn : after (step (((ready 0x8127).setV 1 3).setV 2 5)) (fun t => t.v 1 == 2 && t.v 0xF == 1) = true ∧
    after (step (((ready 0x8127).setV 1 5).setV 2 3)) (fun t => t.v 1 == 0xFE && t.v 0xF == 0) = true := by decide

/-- AR24, AR25: Vy is ignored; with x = 15 the result stays. -/
theorem test_shr : after (step (((ready 0x8126).setV 1 0xFE).setV 2 1)) (fun t => t.v 1 == 0x7F && t.v 0xF == 0) = true ∧
    after (step ((ready 0x8F06).setV 0xF 3)) (fun t => t.v 0xF == 1) = true := by decide

/-- L1-7, AR28: the flag is the raw bit 0x80. -/
theorem test_shl : after (step ((ready 0x810E).setV 1 0x81)) (fun t => t.v 1 == 2 && t.v 0xF == 0x80) = true ∧
    after (step ((ready 0x8F0E).setV 0xF 0x81)) (fun t => t.v 0xF == 2) = true := by decide

/-- RN2: the mask 0 gives 0 for every random byte. -/
theorem test_rnd_mask_zero (s : State) : ∃ t, exec (.rnd 3 0) s = .next t ∧ t.v 3 = 0 :=
  ⟨_, rfl, by simp⟩

/-! ## Memory and address register -/

/-- MA2. -/
theorem test_ldI : after (step (ready 0xAFFF)) (fun t => t.I == 0xFFF) = true := by decide

/-- MA4, MA5: wraps at 12 bits, with no flag. -/
theorem test_addI : after (step (({ ready 0xF31E with I := 0xFFF }).setV 3 1)) (fun t => t.I == 0 && t.v 0xF == 0) = true ∧
    after (step (({ ready 0xF31E with I := 0xFF0 }).setV 3 0xFF)) (fun t => t.I == 0x0EF) = true := by decide

/-- MA7, MA8: the low nibble only. -/
theorem test_ldF : after (step ((ready 0xF029).setV 0 0x0F)) (fun t => t.I == 0x9B) = true ∧
    after (step ((ready 0xF029).setV 0 0x1A)) (fun t => t.I == 0x82) = true := by decide

/-- MA10. -/
theorem test_ldB : after (step (({ ready 0xF233 with I := 0x300 }).setV 2 0xFF))
    (fun t => t.readBytes 0x300 3 == [2, 5, 5] && t.I == 0x300) = true := by decide

/-- MA14. -/
theorem test_ldB_outside : after (step (({ ready 0xF233 with I := 0xFFE }).setV 2 0xFF))
    (fun t => faultOf t == some ⟨.memOutOfRange, 0x200, some 0xF233, some 0x1000⟩ && t.read 0xFFE == 0) = true := by decide

/-- MA15; and the byte after the last one is unchanged. -/
theorem test_stRegs : after (step (((({ ready 0xF255 with I := 0x400 }).setV 0 1).setV 1 2).setV 3 9))
    (fun t => t.readBytes 0x400 4 == [1, 2, 0, 0] && t.I == 0x400) = true := by decide

/-- MA23: the next fetch reads what was stored. -/
theorem test_store_then_fetch : after (step (({ ready 0xF255 with I := 0x202 }).setV 0 0x12))
    (fun t => t.pc == 0x202 && after (step t) (fun u => u.pc == 0x200)) = true := by decide

/-- MA19; V3 is beyond the range. -/
theorem test_ldRegs : after (step ((({ ready 0xF265 with I := 0x300 }).writeBytes 0x300 [2, 5, 4, 7]).setV 3 0xAA))
    (fun t => t.v 0 == 2 && t.v 1 == 5 && t.v 2 == 4 && t.v 3 == 0xAA && t.I == 0x303) = true := by decide

/-- MA21: I wraps to 0. -/
theorem test_ldRegs_wrap : after (step (({ ready 0xFF65 with I := 0xFF0 }).write 0xFFF 0x1F))
    (fun t => t.v 0xF == 0x1F && t.I == 0) = true := by decide

/-! ## Timers and input -/

/-- TI1: the value before the tick. -/
theorem test_ldVxDt : after (step { ready 0xF307 with DT := 5 }) (fun t => t.v 3 == 5 && t.DT == 4) = true := by decide

/-- TI5, TI6: the value written ticks at once, and 0 stays 0. -/
theorem test_ldDtVx : after (step ((ready 0xF315).setV 3 1)) (fun t => t.DT == 0) = true ∧
    after (step { ready 0xF315 with DT := 7 }) (fun t => t.DT == 0) = true := by decide

/-- TI7, TI8. -/
theorem test_ldStVx : after (step ((ready 0xF318).setV 3 0x0A)) (fun t => t.ST == 9 && t.soundActive) = true ∧
    after (step ((ready 0xF318).setV 3 1)) (fun t => t.ST == 0 && !t.soundActive) = true := by decide

/-- TI9. -/
theorem test_ldVxK_waits : after (step { ready 0xF20A with DT := 3, ST := 2 })
    (fun t => t.pc == 0x200 && t.v 2 == 0 && t.DT == 2 && t.ST == 1) = true := by decide

/-- TI10: with one key pressed the choice is forced. -/
theorem test_ldVxK_one_key : ∃ t, exec (.ldVxK 2) { State.reset with keys := oneKey 9 } = .next t ∧ t.v 2 = 9 := by
  have h : selectKey (oneKey 9) = some 9 := by
    unfold selectKey
    rw [show pressedKeys (oneKey 9) = [9] by decide]
    simp [Nat.mod_one]
  exact ⟨State.advance (State.setV { State.reset with keys := oneKey 9 } 2 9) 2,
    by simp only [exec, execLdVxK, h]; rfl, by decide⟩

/-- L1-13, L1-14: the tick of a completed cycle, and none in one that faults. -/
theorem test_tick : after (step { ready 0x6000 with DT := 5 }) (fun t => t.DT == 4 && t.ST == 0) = true ∧
    after (step { ready 0x8008 with DT := 5 })
      (fun t => t.DT == 5 && faultOf t == some ⟨.unknownOpcode, 0x200, some 0x8008, none⟩) = true := by decide

/-! ## Draw -/

/-- DR1, DR2. -/
theorem test_drw_wraps : after (exec (.drw 1 2 1) (((({ State.reset with I := 0x300 }).write 0x300 0x81).setV 1 60).setV 2 31))
    (fun t => pixelAt t.fb 60 31 && pixelAt t.fb 3 31 && !pixelAt t.fb 61 31 && t.v 0xF == 0 && t.redraw &&
      after (exec (.drw 1 2 1) t) (fun u => u.fb == Vector.replicate 32 0 && u.v 0xF == 1)) = true := by decide

/-- DR8, and DR9: with x = 15 the flag is written after the pixels. -/
theorem test_drw_collision :
    after (exec (.drw 0 1 1) { ({ State.reset with I := 0x300 }).write 0x300 0xC0 with fb := onePixel 1 0 })
      (fun t => pixelAt t.fb 0 0 && !pixelAt t.fb 1 0 && t.v 0xF == 1) = true ∧
    after (exec (.drw 15 0 1) ((({ State.reset with I := 0x300 }).write 0x300 0x80).setV 0xF 5))
      (fun t => pixelAt t.fb 5 0 && t.v 0xF == 0) = true := by decide

/-! ## Host interface, and SYS_POLICY = nop -/

/-- A machine with the other policy, and with a font whose bytes are all 0x11. -/
def otherParams : Params := ⟨Vector.replicate 80 0x11, .nop⟩

/-- DE2; and a word of family 8 is UnknownOpcode under either policy. -/
theorem test_sysPolicy_nop :
    after (step { (State.resetWith otherParams).withFetchWord 16 0x0123 with DT := 5 })
      (fun t => t.pc == 0x202 && t.DT == 4 && t.status == .running) = true ∧
    after (step ((State.resetWith otherParams).withFetchWord 16 0x8008)) (fun t => t.status != .running) = true := by decide

/-- FONTSET is the one the machine is given, also after Init; 0xA0 is beyond it. -/
theorem test_fontset_parameter :
    after (hostRun [.init] (State.resetWith otherParams))
      (fun t => t.readBytes 0x50 2 == [0x11, 0x11] && t.read 0x9F == 0x11 && t.read 0xA0 == 0) = true := by decide

/-- R302: the image lands at 0x200, and a second load is refused. -/
theorem test_load :
    after (hostRun [.init, .loadProgram (.bytes [0x60, 0x05])] State.reset) (fun t => t.readBytes 0x200 2 == [0x60, 5]) = true ∧
    hostRun [.loadProgram (.bytes []), .loadProgram (.bytes [])] State.reset = .refused .loadOutsideInterface :=
  ⟨by decide, rfl⟩

/-- The numeric codes of R261. -/
theorem test_faultCodes : [FaultKind.unknownOpcode, .fetchOutOfRange, .memOutOfRange, .stackOverflow, .stackUnderflow,
    .keyIndexOutOfRange].map faultCode = [1, 2, 3, 4, 5, 6] := by decide

/-- A table word is fetched and run as the first instruction after reset. -/
theorem test_withFetchWord : fetch (State.reset.withFetchWord 16 0x6A42) = .ok 0x6A42 ∧
    after (step (State.reset.withFetchWord 16 0x6A42)) (fun t => t.v 0xA == 0x42) = true := by decide

/-! ## Witnesses: for every statement with hypotheses, a state and operands that meet them, clause by clause -/

/-- The checkable part of the invariant, for a machine that is running. -/
def runningInv (s : State) : Bool :=
  Memory.wf s.params.fontset s.mem && decide (s.I.toNat ≤ 0xFFF) && decide (s.pc.toNat ≤ 0x10FE) &&
    decide (∀ j : Fin 16, (s.stack.get j).toNat ≤ 0xFFE) && s.status == .running

theorem inv_of_runningInv {s : State} (h : runningInv s = true) : Inv s := by
  simp only [runningInv, Bool.and_eq_true, decide_eq_true_eq, beq_iff_eq] at h
  obtain ⟨⟨⟨⟨h1, h2⟩, h3⟩, h4⟩, h5⟩ := h
  exact ⟨h1, h2, h3, h4, by unfold statusFits; rw [h5]; trivial⟩

/-- A running state that fetches `w` and whose Step ends with a property. -/
theorem witness_step {s : State} (w : Word) (p : State → Bool) (h1 : runningInv s = true) (h2 : fetch s = .ok w)
    (h3 : after (step s) p = true) : Inv s ∧ fetch s = .ok w ∧ ∃ t, step s = .next t ∧ p t = true :=
  ⟨inv_of_runningInv h1, h2, of_after h3⟩

theorem witness_EncodeOfDecode : decodeWord 0x512F = .ok (.seReg 1 2 0xF) := by decide

/-- Both directions of the table have words: a legal one and an illegal one. -/
theorem witness_DecoderAgreesWithOpcodeTable :
    decodeWord 0x8126 = .ok (.shr 1 2) ∧ (∃ r ∈ opcodeTable, (0x8126 : Word) &&& r.mask = r.pattern) ∧
    ¬ ∃ i, decodeWord 0x8128 = .ok i := by
  refine ⟨by decide, ⟨⟨"SHR_Vx", 0x8006, 0xF00F⟩, by decide, by decide⟩, ?_⟩
  rintro ⟨i, h⟩
  rw [show decodeWord 0x8128 = .error (.unknownOpcode 0x8128) by decide] at h
  cases h

/-- Both policies, and the three clauses, at the ends of the range. -/
theorem witness_FamilyZeroWords : State.reset.params.sysPolicy = .fault ∧ (State.resetWith otherParams).params.sysPolicy = .nop ∧
    (0x00E0 : Word).toNat < 0x1000 ∧ (0x00EE : Word).toNat < 0x1000 ∧
    (0x0000 : Word).toNat < 0x1000 ∧ (0x0FFF : Word).toNat < 0x1000 ∧ (0x0FFF : Word) ≠ 0x00E0 ∧ (0x0FFF : Word) ≠ 0x00EE := by
  decide

/-- A step that completes, at the last address that fetches, and one that raises. -/
theorem witness_StepRunsTheDecodedInstruction :
    (let s := (State.reset.setPc 0xFFE).writeBytes 0xFFE [0x12, 0x00]
     s.status = .running ∧ s.pc.toNat ≤ 0xFFE ∧ decodeBytes [s.read s.pc.toNat, s.read (s.pc.toNat + 1)] = .ok (.jp 0x200, []) ∧
      after (exec (.jp 0x200) s) (fun t => t.status == .running) = true) ∧
    (let s := ready 0x00EE
     s.status = .running ∧ s.pc.toNat ≤ 0xFFE ∧ decodeBytes [s.read s.pc.toNat, s.read (s.pc.toNat + 1)] = .ok (.ret, []) ∧
      after (exec .ret s) (fun t => t.status != .running) = true) := by decide

/-- One pc for each clause, at the boundaries; at 0xFFE a step that raises another fault. -/
theorem witness_FetchOutsideMemoryFaults :
    ((State.reset.setPc 0x1000).status = .running ∧ (State.reset.setPc 0x1000).pc.toNat > 0xFFF) ∧
    ((State.reset.setPc 0xFFF).status = .running ∧ (State.reset.setPc 0xFFF).pc.toNat = 0xFFF) ∧
    (State.reset.setPc 0xFFE).pc.toNat ≤ 0xFFE ∧
    after (step (State.reset.setPc 0xFFE)) (fun t => (faultOf t).isSome) = true := by decide

theorem witness_IllegalWordFaultsUnchanged :
    let s := ready 0x8008
    s.status = .running ∧ s.pc.toNat ≤ 0xFFE ∧
      (0x8008 : Word).toNat = (s.read s.pc.toNat).toNat * 256 + (s.read (s.pc.toNat + 1)).toNat ∧
      legalWord 0x8008 = false ∧ (0x8008 : Word).toNat > 0xFFF ∧ s.params.sysPolicy = .fault := by decide

theorem witness_FaultsArePreciseAndFinal :
    (ready 0x00EE).status = .running ∧ ∃ t, step (ready 0x00EE) = .next t ∧ (t.status != .running) = true :=
  ⟨by decide, of_after (by decide)⟩

/-- Every kind of fault, at a boundary of its check. -/
theorem witness_FaultIsTheFirstFailingCheck :
    (Inv (State.reset.setPc 0xFFF) ∧ ∃ t, step (State.reset.setPc 0xFFF) = .next t ∧
      ((faultOf t).map FaultRecord.kind == some .fetchOutOfRange) = true) ∧
    (Inv (ready 0x8008) ∧ fetch (ready 0x8008) = .ok 0x8008 ∧ ∃ t, step (ready 0x8008) = .next t ∧
      ((faultOf t).map FaultRecord.kind == some .unknownOpcode) = true) ∧
    (let s := { ready 0x2300 with sp := 16 }
     Inv s ∧ fetch s = .ok 0x2300 ∧ ∃ t, step s = .next t ∧ ((faultOf t).map FaultRecord.kind == some .stackOverflow) = true) ∧
    (Inv (ready 0x00EE) ∧ fetch (ready 0x00EE) = .ok 0x00EE ∧ ∃ t, step (ready 0x00EE) = .next t ∧
      ((faultOf t).map FaultRecord.kind == some .stackUnderflow) = true) ∧
    (let s := (ready 0xE39E).setV 3 16
     Inv s ∧ fetch s = .ok 0xE39E ∧ ∃ t, step s = .next t ∧
      ((faultOf t).map FaultRecord.kind == some .keyIndexOutOfRange) = true) ∧
    (let s := { ready 0xF233 with I := 0xFFE }
     Inv s ∧ fetch s = .ok 0xF233 ∧ ∃ t, step s = .next t ∧ ((faultOf t).map FaultRecord.kind == some .memOutOfRange) = true) := by
  refine ⟨⟨inv_of_runningInv (by decide), of_after (by decide)⟩, witness_step _ _ (by decide) (by decide) (by decide),
    witness_step _ _ (by decide) (by decide) (by decide), witness_step _ _ (by decide) (by decide) (by decide),
    witness_step _ _ (by decide) (by decide) (by decide), witness_step _ _ (by decide) (by decide) (by decide)⟩

/-- The three instructions that reach memory: FX55, FX65 and DXYN just outside. -/
theorem witness_FaultIsTheFirstFailingCheck_memory :
    (let s := { ready 0xFF55 with I := 0xFF1 }
     Inv s ∧ fetch s = .ok 0xFF55 ∧ ∃ t, step s = .next t ∧ ((faultOf t).map FaultRecord.kind == some .memOutOfRange) = true) ∧
    (let s := { ready 0xF165 with I := 0xFFF }
     Inv s ∧ fetch s = .ok 0xF165 ∧ ∃ t, step s = .next t ∧ ((faultOf t).map FaultRecord.kind == some .memOutOfRange) = true) ∧
    (let s := { ready 0xD01F with I := 0xFF2 }
     Inv s ∧ fetch s = .ok 0xD01F ∧ ∃ t, step s = .next t ∧
      ((faultOf t).map FaultRecord.kind == some .memOutOfRange) = true) := by
  refine ⟨witness_step _ _ (by decide) (by decide) (by decide), witness_step _ _ (by decide) (by decide) (by decide),
    witness_step _ _ (by decide) (by decide) (by decide)⟩

/-- A halted state: after a fault, and after a failed load. -/
theorem witness_HaltedStepChangesNothing :
    { State.reset with status := .faulted ⟨.unknownOpcode, 0x200, some 0, none⟩ }.status ≠ .running ∧
    { State.reset with status := .loadFailed .readError }.status ≠ .running := by decide

/-- A completed cycle with a timer at 1 and one at 0, one that writes DT, and one that faults. -/
theorem witness_TimersTickOncePerCompletedCycle :
    after (step { ready 0x6000 with DT := 1 }) (fun t => t.status == .running) = true ∧
    after (step ((ready 0xF315).setV 3 1)) (fun t => t.status == .running) = true ∧
    after (step ((ready 0xF318).setV 3 1)) (fun t => t.status == .running) = true ∧
    after (step { ready 0x8008 with DT := 1 }) (fun t => t.status != .running) = true := by decide

/-- One state for each shape of the pc rule. -/
theorem witness_ProgramCounterAfterCompletedCycle :
    (∀ w ∈ ([0x1FFF, 0x2000, 0xBFFF, 0x3000, 0x4001, 0x5000, 0x9000, 0xE09E, 0xE0A1, 0xF20A, 0x6A42] : List Nat),
      runningInv (ready w) = true ∧ fetch (ready w) = .ok (BitVec.ofNat 16 w) ∧
        (decodeWord (BitVec.ofNat 16 w)).isOk = true ∧ after (step (ready w)) (fun t => t.status == .running) = true) ∧
    (let s := { ready 0x00EE with sp := 1, stack := State.reset.stack.set 0 0xFFE }
     runningInv s = true ∧ fetch s = .ok 0x00EE ∧ after (step s) (fun t => t.status == .running && t.pc == 0x1000) = true) := by
  decide

/-- A CLS after which the screen differs, with the redraw flag set before. -/
theorem witness_OnlyClearAndDrawChangeTheScreen :
    after (step { ready 0x00E0 with fb := onePixel 0 0, redraw := true })
      (fun t => t.redraw && t.fb != onePixel 0 0) = true := by decide

/-- FX33 at the top of memory, and FX55 with all sixteen registers, each changing its last byte. -/
theorem witness_OnlyStoresChangeMemory :
    after (step (({ ready 0xF233 with I := 0xFFD }).setV 2 1)) (fun t => t.read 0xFFF != (ready 0xF233).read 0xFFF) = true ∧
    after (step (({ ready 0xFF55 with I := 0xFF0 }).setV 0xF 1)) (fun t => t.read 0xFFF != (ready 0xFF55).read 0xFFF) = true := by
  decide

/-- A flag write, and a write of VF as the destination. -/
theorem witness_OnlySixInstructionsWriteTheFlag :
    after (exec (.addReg 1 2) ((State.reset.setV 1 0xFF).setV 2 1)) (fun t => t.v vf != State.reset.v vf) = true ∧
    after (exec (.ldImm 15 7) State.reset) (fun t => t.v vf != State.reset.v vf) = true ∧
    after (exec (.ldRegs 15) (({ State.reset with I := 0xFF0 }).write 0xFFF 1)) (fun t => t.v vf != State.reset.v vf) = true := by
  decide

theorem witness_RandomByteIsUsedOnlyByRnd :
    ∀ w x nn, fetch (ready 0x6A42) = .ok w → decodeWord w ≠ .ok (.rnd x nn) := by
  intro w x nn h hd
  rw [show fetch (ready 0x6A42) = .ok 0x6A42 by decide] at h
  cases h
  rw [show decodeWord 0x6A42 = .ok (.ldImm 0xA 0x42) by decide] at hd
  cases hd

/-- The premise of the whole-machine rules, of the acknowledgement and of both invariants: a state with the invariant
that steps, with its redraw flag set. -/
theorem witness_step_with_invariant :
    let s := { ready 0x6A42 with redraw := true }
    Inv s ∧ s.redraw = true ∧ ∃ t, step s = .next t ∧ (t.redraw && t.status == .running) = true :=
  ⟨inv_of_runningInv (by decide), rfl, of_after (by decide)⟩

/-- The ends of the stack, for RET and for CALL. -/
theorem witness_stack_clauses :
    (∃ j : Fin 16, { State.reset with sp := 1 }.sp.val = j.val + 1) ∧ (∃ j : Fin 16, { State.reset with sp := 16 }.sp.val = j.val + 1) ∧
    State.reset.sp.val = 0 ∧ (∃ j : Fin 16, State.reset.sp.val = j.val) ∧
    (∃ j : Fin 16, { State.reset with sp := 15 }.sp.val = j.val) ∧ { State.reset with sp := 16 }.sp.val = 16 := by decide

/-- A CALL from the last free entry, and a state that keeps the stack it left. -/
theorem witness_ReturnResumesAfterTheCall :
    ({ State.reset with sp := 15 }).sp.val < 16 ∧
      ∃ t, exec (.call 0x300) { State.reset with sp := 15 } = .next t ∧ (t.sp == 16) = true ∧
        ∃ u : State, u.stack = t.stack ∧ u.sp = t.sp := by
  obtain ⟨t, h1, h2⟩ := of_after (r := exec (.call 0x300) { State.reset with sp := 15 }) (p := fun t => t.sp == 16) (by decide)
  exact ⟨by decide, t, h1, h2, t, rfl, rfl⟩

/-- Key indices 0, 15 and 16. -/
theorem witness_KeySkipsReadTheKey :
    (∃ k : Fin 16, (State.reset.v 3).toNat = k.val) ∧ (∃ k : Fin 16, ((State.reset.setV 3 15).v 3).toNat = k.val) ∧
    ((State.reset.setV 3 16).v 3).toNat > 15 := by decide

/-- The last places that fit, and the first that do not. -/
theorem witness_data_access_bounds :
    { State.reset with I := 0xFFD }.I.toNat + 2 ≤ 0xFFF ∧ { State.reset with I := 0xFF0 }.I.toNat + (15 : Reg).val ≤ 0xFFF ∧
    { State.reset with I := 0xFFF }.I.toNat + (0 : Reg).val ≤ 0xFFF ∧
    { State.reset with I := 0xFFE }.I.toNat ≤ 0xFFF ∧ { State.reset with I := 0xFFE }.I.toNat + 2 > 0xFFF ∧
    { State.reset with I := 0xFF1 }.I.toNat ≤ 0xFFF ∧ { State.reset with I := 0xFF1 }.I.toNat + (15 : Reg).val > 0xFFF ∧
    0 < (0xF : Nibble).toNat ∧ { State.reset with I := 0xFF2 }.I.toNat + (0xF : Nibble).toNat - 1 > 0xFFF := by decide

/-- For the exact rule of R263: FX33 just outside and just inside, and an instruction without data access that raises. -/
theorem witness_DataAccessOutsideMemoryFaults :
    ({ State.reset with I := 0xFFE }.status = .running ∧ ∃ k, k < 3 ∧ { State.reset with I := 0xFFE }.I.toNat + k > 0xFFF) ∧
    (∀ k, k < 3 → { State.reset with I := 0xFFD }.I.toNat + k ≤ 0xFFF) ∧
    after (exec .ret State.reset) (fun t => (faultOf t).isSome) = true :=
  ⟨⟨rfl, 2, by decide, by decide⟩, by decide, by decide⟩

/-- The flag clauses of the arithmetic statements, for a destination that is not VF. -/
theorem witness_flag_clauses : (14 : Reg) ≠ vf := by decide

theorem witness_StoreThenLoadRestoresTheRegisters :
    ∃ t, exec (.stRegs 15) { State.reset with I := 0xFF0 } = .next t ∧ (t.status == .running) = true := of_after (by decide)

/-- Two registers stored at the last two addresses, and three digits at the last three. -/
theorem witness_StoresAreSeenByTheNextFetch :
    ({ State.reset with I := 0xFFE }.I.toNat + (1 : Reg).val ≤ 0xFFF ∧ (0 : Reg) < 1 ∧ (1 : Reg).val = (0 : Reg).val + 1 ∧
      ∃ t, exec (.stRegs 1) { State.reset with I := 0xFFE } = .next t ∧ (t.status == .running) = true) ∧
    ({ State.reset with I := 0xFFD }.I.toNat + 2 ≤ 0xFFF ∧
      ∃ t, exec (.ldB 1) { State.reset with I := 0xFFD } = .next t ∧ (t.status == .running) = true) :=
  ⟨⟨by decide, by decide, by decide, of_after (by decide)⟩, by decide, of_after (by decide)⟩

/-- No key, one key, and two keys. -/
theorem witness_KeyWaitPollsTheKeys :
    (∀ k, State.reset.key k = false) ∧ (∃ k, (State.reset.setKeys (oneKey 15)).key k = true) ∧
    (∀ j, (State.reset.setKeys (oneKey 15)).key j = true ↔ j = 15) ∧
    (∃ k, (State.reset.setKeys ((oneKey 3).set 12 true)).key k = true) := by decide

theorem witness_KeyWaitSpinsWhileTimersRun :
    (ready 0xF20A).status = .running ∧ fetch (ready 0xF20A) = .ok (encode (.ldVxK 2)) ∧ ∀ k, (ready 0xF20A).key k = false := by
  decide

/-- The largest sprite that fits, and the sprite of no rows. -/
theorem witness_DrawTogglesTheSpritePixels :
    ((0xF : Nibble).toNat = 0 ∨ { State.reset with I := 0xFF1 }.I.toNat + (0xF : Nibble).toNat ≤ 0x1000) ∧
    ((0 : Nibble).toNat = 0 ∨ { State.reset with I := 0xFFF }.I.toNat + (0 : Nibble).toNat ≤ 0x1000) ∧
    ((1 : Nibble).toNat = 0 ∨ { State.reset with I := 0xFFF }.I.toNat + (1 : Nibble).toNat ≤ 0x1000) := by decide

/-- The vector DR1, DR2, where a sprite bit lands on a clear pixel; and DR6, where none does. The state between the draws is
the one the first leaves. -/
theorem witness_DrawTwiceRestoresTheScreen :
    (let s := ((({ State.reset with I := 0x300 }).write 0x300 0x81).setV 1 60).setV 2 31
     ((1 : Nibble).toNat = 0 ∨ s.I.toNat + (1 : Nibble).toNat ≤ 0x1000) ∧ SpriteHit s 1 2 1 60 31 ∧
      pixelAt s.fb 60 31 = false ∧
      ∃ t, exec (.drw 1 2 1) s = .next t ∧
        (t.I == s.I && t.mem == s.mem && t.params == s.params && t.v 1 == s.v 1 && t.v 2 == s.v 2 &&
          after (exec (.drw 1 2 1) t) (fun u => u.v vf == 1)) = true) ∧
    (let s := { State.reset with I := 0x300 }
     ((0 : Nibble).toNat = 0 ∨ s.I.toNat + (0 : Nibble).toNat ≤ 0x1000) ∧ (∀ px py, ¬ SpriteHit s 1 2 0 px py) ∧
      ∃ t, exec (.drw 1 2 0) s = .next t ∧ (after (exec (.drw 1 2 0) t) (fun u => u.v vf == 0)) = true) := by
  refine ⟨⟨by decide, ⟨0, 0, by decide⟩, by decide, of_after (by decide)⟩, by decide, ?_, of_after (by decide)⟩
  rintro px py ⟨r, c, hr, -⟩
  exact absurd hr (Nat.not_lt_zero r)

/-- The first and the last address of both parts of the clause about 0. -/
theorem witness_ResetContents :
    (0 < 0x50 ∨ (0xA0 ≤ 0 ∧ 0 < 4096)) ∧ (0x4F < 0x50 ∨ (0xA0 ≤ 0x4F ∧ 0x4F < 4096)) ∧
    (0xA0 < 0x50 ∨ (0xA0 ≤ 0xA0 ∧ 0xA0 < 4096)) ∧ (4095 < 0x50 ∨ (0xA0 ≤ 4095 ∧ 4095 < 4096)) := by decide

/-- The default policy. -/
theorem witness_EmptyMemoryFaultsAtTheEntryPoint : defaultParams.sysPolicy = .fault := rfl

/-- A halted state that Init leaves, and on which another action answers a next state. -/
theorem witness_OnlyInitLeavesAHalt :
    let s := { State.reset with status := .loadFailed .readError }
    s.status ≠ .running ∧ after (hostAct .init s) (fun t => t.status == .running) = true ∧
      after (hostAct .step s) (fun t => t.status == s.status) = true := by decide

/-- The largest image, the empty one, and one that is too large. -/
theorem witness_load_bounds :
    State.reset.status = .running ∧ State.reset.phase = .fresh ∧ (List.replicate 3584 (0xFF : Byte)).length ≤ 3584 ∧
    ([] : List Byte).length ≤ 3584 ∧ 3584 < (List.replicate 3585 (0xFF : Byte)).length :=
  ⟨rfl, rfl, by rw [List.length_replicate], by decide, by rw [List.length_replicate]; decide⟩

/-- A first step that completes, and one that raises. -/
theorem witness_LoadAfterAStepIsRefused :
    (ready 0x6A42).status = .running ∧ (∃ t, step (ready 0x6A42) = .next t ∧ (t.status == .running) = true) ∧
      ∃ t, step State.reset = .next t ∧ (t.status != .running) = true :=
  ⟨rfl, of_after (by decide), of_after (by decide)⟩

/-- The first and the last framebuffer bit, and a Step that raises. -/
theorem witness_HostReadsReportTheState :
    after (step (ready 0x00EE)) (fun t => (faultOf t).isSome) = true ∧ (0 : Fin 2048).val = (0 : Fin 32).val * 64 + (0 : Fin 64).val ∧
    (2047 : Fin 2048).val = (31 : Fin 32).val * 64 + (63 : Fin 64).val := by decide

end Sys2Proof.Tests
end

section
/-! The values after initialisation (10_state.md R43 to R49). -/

namespace Sys2Proof.Machine

/-- Every pixel of a framebuffer whose rows are all zero is clear (R47). -/
@[simp] theorem pixelAt_replicate_zero (x : Fin 64) (y : Fin 32) : pixelAt (Vector.replicate 32 0) x y = false := by
  simp [pixelAt, Vector.get_eq_getElem]

@[simp] theorem State.pixelAt_resetWith (p : Params) (x : Fin 64) (y : Fin 32) :
    pixelAt (State.resetWith p).fb x y = false :=
  pixelAt_replicate_zero x y

@[simp] theorem State.key_resetWith (p : Params) (k : Fin 16) : (State.resetWith p).key k = false := by
  simp [State.key, State.resetWith, Vector.get_eq_getElem]

/-- Settles O52: pc, the timers, the redraw flag and the status are the fields initialisation writes; the keys and the
framebuffer are read through their own lemmas. -/
theorem resetValues : Obligations.ResetValues :=
  ⟨rfl, fun p => ⟨rfl, rfl, rfl, State.key_resetWith p, State.pixelAt_resetWith p, rfl, rfl⟩⟩

end Sys2Proof.Machine
end

section
/-! Fetch (30_encoding.md R81): the cycle outside memory, and why no executed word raises FetchOutOfRange. -/

namespace Sys2Proof.Machine

/-- The other side of `fetch_ok`: the first of the two bytes outside memory is the one reported (R81). -/
theorem fetch_error {s : State} (h : s.pc.toNat > 0xFFE) :
    fetch s = .error (if s.pc.toNat > 0xFFF then s.pc.toNat else 0x1000) := if_neg (by omega)

theorem step_of_fetch_error {s : State} {a : Nat} (hs : s.status = .running) (h : fetch s = .error a) :
    step s = .next { s with status := .faulted ⟨.fetchOutOfRange, s.pc, none, some a⟩ } := by
  simp [step, instructionCycle, hs, h]

/-- What executing a word from `s` can answer: a next state, which keeps the status, or which is `s` with a record of a
kind other than FetchOutOfRange (R93, R260). -/
def CompletesOrRaises (s : State) (r : Result) : Prop :=
  ∃ t, r = .next t ∧ (t.status = s.status ∨ ∃ kind opcode addr, kind ≠ .fetchOutOfRange ∧
    t = { s with status := .faulted ⟨kind, s.pc, opcode, addr⟩ })

namespace CompletesOrRaises

theorem of_status {s t : State} (h : t.status = s.status) : CompletesOrRaises s (.next t) := ⟨t, rfl, .inl h⟩

theorem of_raise {kind : FaultKind} (h : kind ≠ .fetchOutOfRange) (opcode : Option Word) (addr : Option Nat) (s : State) :
    CompletesOrRaises s (raise kind opcode addr s) := ⟨_, rfl, .inr ⟨kind, opcode, addr, h, rfl⟩⟩

theorem setReg (x : Reg) (b : Byte) (s : State) : CompletesOrRaises s (setReg x b s) := of_status rfl

theorem setFlagAndReg (flag : Byte) (x : Reg) (b : Byte) (s : State) :
    CompletesOrRaises s (setFlagAndReg flag x b s) := of_status rfl

theorem skipIf (c : Bool) (s : State) : CompletesOrRaises s (skipIf c s) := of_status rfl

theorem withAccess (i : Instr) (n : Nat) {s : State} {go : Result} (h : CompletesOrRaises s go) :
    CompletesOrRaises s (withAccess i n s go) := by
  obtain ⟨-, hgo⟩ | ⟨-, -, hraise⟩ := withAccess_cases i n s go
  · rwa [hgo]
  · rw [hraise]
    exact of_raise (by decide) _ _ s

theorem execRet (s : State) : CompletesOrRaises s (execRet s) := by
  unfold Machine.execRet
  split
  · exact of_raise (by decide) _ _ s
  · exact of_status rfl

theorem execCall (nnn : Addr) (s : State) : CompletesOrRaises s (execCall nnn s) := by
  unfold Machine.execCall
  split
  · exact of_status rfl
  · exact of_raise (by decide) _ _ s

theorem skipOnKey (i : Instr) (x : Reg) (wanted : Bool) (s : State) :
    CompletesOrRaises s (skipOnKey i x wanted s) := by
  unfold Machine.skipOnKey
  split
  · exact skipIf _ s
  · exact of_raise (by decide) _ _ s

theorem execLdVxK (x : Reg) (s : State) : CompletesOrRaises s (execLdVxK x s) := by
  unfold Machine.execLdVxK
  split
  · exact of_status rfl
  · exact setReg x _ s

/-- The instructions that can raise are the stack operations, the key skips and the data accesses (R261). -/
theorem exec (i : Instr) (s : State) : CompletesOrRaises s (exec i s) := by
  cases i with
  | ret => exact execRet s
  | call nnn => exact execCall nnn s
  | skp x | sknp x => exact skipOnKey _ x _ s
  | drw x y n => exact withAccess _ _ (of_status rfl)
  | ldB x => exact withAccess _ _ (of_status (by simp))
  | stRegs x => exact withAccess _ _ (of_status (by simp))
  | ldRegs x => exact withAccess _ _ (of_status (by simp))
  | ldVxK x => exact execLdVxK x s
  | cls | jp | jpV0 | ldI | addI | ldF | ldDtVx | ldStVx => exact of_status rfl
  | seImm | sneImm | seReg | sneReg => exact skipIf _ s
  | ldImm | addImm | ldReg | orReg | andReg | xorReg | rnd | ldVxDt => exact setReg _ _ s
  | addReg | sub | shr | subn | shl => exact setFlagAndReg _ _ _ s

/-- A word that does not decode is skipped or raises UnknownOpcode (R90). -/
theorem runWord (w : Word) (s : State) : CompletesOrRaises s (runWord w s) := by
  cases hd : decodeWord w with
  | ok i =>
    rw [runWord_ok hd]
    exact exec i s
  | error e =>
    rw [runWord_error hd]
    split
    · exact of_status rfl
    · exact of_raise (by decide) _ _ s

/-- The record an executed word leaves, read off the state. -/
theorem kind_ne_fetchOutOfRange {s u : State} {r : FaultRecord} (h : CompletesOrRaises s (.next u))
    (hs : s.status = .running) (hr : u.status = .faulted r) : r.kind ≠ .fetchOutOfRange := by
  obtain ⟨t, ht, hkeep | ⟨kind, opcode, addr, hkind, rfl⟩⟩ := h <;> cases ht
  · simp [hkeep, hs] at hr
  · cases hr
    exact hkind

end CompletesOrRaises

/-- With pc at most 0xFFE the fetch succeeds, so a record comes from the executed word (R81, R93). -/
theorem step_kind_ne_fetchOutOfRange {s t : State} {r : FaultRecord} (hpc : s.pc.toNat ≤ 0xFFE)
    (hs : s.status = .running) (h : step s = .next t) (hr : t.status = .faulted r) : r.kind ≠ .fetchOutOfRange := by
  obtain ⟨hns, -⟩ | ⟨-, a, hf, -⟩ | ⟨-, w, u, -, hu, hend⟩ := step_cases h
  · exact absurd hs hns
  · simp [fetch_ok hpc] at hf
  · obtain ⟨hrun, rfl⟩ | ⟨-, rfl⟩ := hend
    · simp [hrun] at hr
    · exact (hu ▸ CompletesOrRaises.runWord w s).kind_ne_fetchOutOfRange hs hr

/-- Settles O9: the two addresses are those of `fetch_error`, and with pc inside memory no word raises this kind. -/
theorem fetchOutsideMemoryFaults : Obligations.FetchOutsideMemoryFaults := by
  intro s hs
  refine ⟨fun hpc => ?_, fun hpc => ?_, fun hpc t r => step_kind_ne_fetchOutOfRange hpc hs⟩
  · exact step_of_fetch_error hs ((fetch_error (by omega)).trans (by rw [if_pos hpc]))
  · exact step_of_fetch_error hs ((fetch_error (by omega)).trans (by rw [if_neg (by omega)]))

end Sys2Proof.Machine
end

section
/-! AckRedraw (60_exceptions.md R291): no instruction reads the redraw flag, so a cycle begun with the flag cleared ends
in the same state but for the flag. -/

namespace Sys2Proof.Machine

/-- An outcome with the redraw flag of its next state cleared. Two outcomes that it makes equal differ in that flag at
most. -/
def ackResult : Result → Result
  | .next s => .next s.ackRedraw
  | .fault r => .fault r
  | .refused r => .refused r

theorem ackResult_eq_next {r : Result} {t : State} (h : ackResult r = .next t) : ∃ u, r = .next u ∧ u.ackRedraw = t := by
  cases r with
  | next u => exact ⟨u, rfl, Host.Outcome.next.inj h⟩
  | fault f => cases h
  | refused f => cases h

/-! ## The operations on many bytes or registers -/

@[simp] theorem State.ackRedraw_readBytes (n : Nat) (s : State) (a : Nat) :
    s.ackRedraw.readBytes a n = s.readBytes a n := by
  induction n generalizing a with
  | zero => rfl
  | succ n ih => simp [State.readBytes, ih]

@[simp] theorem State.ackRedraw_regsFrom (n : Nat) (s : State) (i : Nat) :
    s.ackRedraw.regsFrom i n = s.regsFrom i n := by
  induction n generalizing i with
  | zero => rfl
  | succ n ih => simp [State.regsFrom, ih]

theorem State.ackRedraw_write (s : State) (a : Nat) (b : Byte) :
    s.ackRedraw.write a b = (s.write a b).ackRedraw := by
  unfold State.write
  split <;> rfl

theorem State.ackRedraw_writeBytes (bytes : List Byte) (s : State) (a : Nat) :
    s.ackRedraw.writeBytes a bytes = (s.writeBytes a bytes).ackRedraw := by
  induction bytes generalizing s a with
  | nil => rfl
  | cons b rest ih => simp only [State.writeBytes, State.ackRedraw_write, ih]

theorem State.ackRedraw_loadRegsFrom (bytes : List Byte) (s : State) (i : Nat) :
    s.ackRedraw.loadRegsFrom i bytes = (s.loadRegsFrom i bytes).ackRedraw := by
  induction bytes generalizing s i with
  | nil => rfl
  | cons b rest ih => exact ih (s.setV (Fin.ofNat 16 i) b) (i + 1)

/-! ## The shared operations and the instructions -/

/-- The data-access check reads I alone. -/
theorem ackResult_withAccess (i : Instr) (n : Nat) {s : State} {go go' : Result} (h : ackResult go' = ackResult go) :
    ackResult (withAccess i n s.ackRedraw go') = ackResult (withAccess i n s go) := by
  simp only [withAccess, State.ackRedraw_I]
  split
  · rfl
  · exact h

theorem ackResult_execRet (s : State) : ackResult (execRet s.ackRedraw) = ackResult (execRet s) := by
  simp only [execRet, State.ackRedraw_sp]
  split <;> rfl

theorem ackResult_execCall (nnn : Addr) (s : State) :
    ackResult (execCall nnn s.ackRedraw) = ackResult (execCall nnn s) := by
  simp only [execCall, apply_dite ackResult]
  rfl

theorem ackResult_skipOnKey (i : Instr) (x : Reg) (wanted : Bool) (s : State) :
    ackResult (skipOnKey i x wanted s.ackRedraw) = ackResult (skipOnKey i x wanted s) := by
  simp only [skipOnKey, State.ackRedraw_v]
  split <;> rfl

theorem ackResult_execLdVxK (x : Reg) (s : State) : ackResult (execLdVxK x s.ackRedraw) = ackResult (execLdVxK x s) := by
  simp only [execLdVxK, State.ackRedraw_keys]
  split <;> rfl

/-- CLS and DRW set the flag whatever it was; every other instruction leaves it as it was. -/
theorem ackResult_exec (i : Instr) (s : State) : ackResult (exec i s.ackRedraw) = ackResult (exec i s) := by
  cases i with
  | ret => exact ackResult_execRet s
  | call nnn => exact ackResult_execCall nnn s
  | skp x | sknp x => exact ackResult_skipOnKey _ x _ s
  | ldVxK x => exact ackResult_execLdVxK x s
  | drw x y n =>
    refine ackResult_withAccess _ _ ?_
    rw [State.ackRedraw_I, State.ackRedraw_readBytes]
    rfl
  | ldB x =>
    refine ackResult_withAccess _ _ ?_
    rw [State.ackRedraw_writeBytes]
    rfl
  | stRegs x =>
    refine ackResult_withAccess _ _ ?_
    rw [State.regsUpTo, State.ackRedraw_regsFrom, State.ackRedraw_writeBytes]
    rfl
  | ldRegs x =>
    refine ackResult_withAccess _ _ ?_
    rw [State.ackRedraw_readBytes, State.ackRedraw_loadRegsFrom]
    rfl
  | cls | jp | jpV0 | ldI | addI | ldF | ldDtVx | ldStVx => rfl
  | seImm | sneImm | seReg | sneReg => rfl
  | ldImm | addImm | ldReg | orReg | andReg | xorReg | rnd | ldVxDt => rfl
  | addReg | sub | shr | subn | shl => rfl

/-! ## The cycle -/

theorem ackResult_runWord (w : Word) (s : State) : ackResult (runWord w s.ackRedraw) = ackResult (runWord w s) := by
  cases hd : decodeWord w with
  | ok i => rw [runWord_ok hd, runWord_ok hd, ackResult_exec]
  | error e =>
    simp only [runWord_error hd, apply_ite ackResult]
    rfl

theorem ackResult_finish (r : Result) : ackResult (finish r) = finish (ackResult r) := by
  cases r with
  | next s => exact apply_ite ackResult (s.status = .running) (.next s.endCycle) (.next s)
  | fault f => rfl
  | refused f => rfl

/-- The fetch does not depend on the flag, and the cycle's end does the same to both outcomes. -/
theorem ackResult_step (s : State) : ackResult (step s.ackRedraw) = ackResult (step s) := by
  have hfetch : fetch s.ackRedraw = fetch s := rfl
  simp only [step, instructionCycle, State.ackRedraw_status, hfetch]
  split
  · cases fetch s with
    | ok w => simp only [ackResult_finish, ackResult_runWord]
    | error a => rfl
  · rfl

theorem State.ackRedraw_onlyChanges (s : State) : OnlyChanges s s.ackRedraw (fun p => p = .redraw) := by
  intro p hp
  cases p with
  | redraw => exact absurd rfl hp
  | _ => rfl

/-- Settles O22: the frame of AckRedraw, and the Step's indifference to the flag (`ackResult_step`). -/
theorem acknowledgementDoesNotInfluenceTheCore : Obligations.AcknowledgementDoesNotInfluenceTheCore := by
  refine ⟨fun s => ⟨_, rfl, rfl, s.ackRedraw_onlyChanges⟩, fun s t h => ackResult_eq_next ?_⟩
  rw [ackResult_step, h]
  rfl

end Sys2Proof.Machine
end

section
/-! Encoding (30_encoding.md R82 to R90): the decoder read family by family, the encoder as its inverse, and the rows of
the opcode table as the same function. -/

namespace Sys2Proof

/-! ## The fields of an encoded word -/

section EncodedFields

variable {family : Nat}

theorem familyOf_encodeNNN (h : family < 16) (nnn : Addr) : familyOf (encodeNNN family nnn) = family := by
  rw [familyOf_eq, encodeNNN_toNat family h]
  omega

theorem nnnOf_encodeNNN (h : family < 16) (nnn : Addr) : nnnOf (encodeNNN family nnn) = nnn := by
  apply BitVec.eq_of_toNat_eq
  rw [nnnOf_toNat, encodeNNN_toNat family h]
  omega

theorem familyOf_encodeXNN (h : family < 16) (x : Reg) (nn : Byte) : familyOf (encodeXNN family x nn) = family := by
  rw [familyOf_eq, encodeXNN_toNat family h]
  omega

theorem xOf_encodeXNN (h : family < 16) (x : Reg) (nn : Byte) : xOf (encodeXNN family x nn) = x := by
  apply Fin.ext
  rw [xOf_val, encodeXNN_toNat family h]
  omega

theorem field_7_0_encodeXNN (h : family < 16) (x : Reg) (nn : Byte) : field (encodeXNN family x nn) 7 0 = nn.toNat := by
  rw [field_7_0, encodeXNN_toNat family h]
  omega

theorem nnOf_encodeXNN (h : family < 16) (x : Reg) (nn : Byte) : nnOf (encodeXNN family x nn) = nn := by
  apply BitVec.eq_of_toNat_eq
  rw [nnOf_toNat, encodeXNN_toNat family h]
  omega

variable {y n : Nat}

theorem familyOf_encodeXYN (h : family < 16) (x : Reg) (hy : y < 16) (hn : n < 16) :
    familyOf (encodeXYN family x y n) = family := by
  rw [familyOf_eq, encodeXYN_toNat family x y n h x.isLt hy hn]
  omega

theorem xOf_encodeXYN (h : family < 16) (x : Reg) (hy : y < 16) (hn : n < 16) : xOf (encodeXYN family x y n) = x := by
  apply Fin.ext
  rw [xOf_val, encodeXYN_toNat family x y n h x.isLt hy hn]
  omega

theorem yOf_encodeXYN (h : family < 16) (x y : Reg) (hn : n < 16) : yOf (encodeXYN family x y n) = y := by
  apply Fin.ext
  rw [yOf_val, encodeXYN_toNat family x y n h x.isLt y.isLt hn]
  omega

theorem yNibbleOf_encodeXYN (h : family < 16) (x : Reg) (ign : Nibble) (hn : n < 16) :
    yNibbleOf (encodeXYN family x ign.toNat n) = ign := by
  apply BitVec.eq_of_toNat_eq
  rw [yNibbleOf_toNat, encodeXYN_toNat family x _ n h x.isLt ign.isLt hn]
  omega

theorem field_3_0_encodeXYN (h : family < 16) (x : Reg) (hy : y < 16) (hn : n < 16) :
    field (encodeXYN family x y n) 3 0 = n := by
  rw [field_3_0, encodeXYN_toNat family x y n h x.isLt hy hn]
  omega

theorem nOf_encodeXYN (h : family < 16) (x : Reg) (hy : y < 16) (n : Nibble) :
    nOf (encodeXYN family x y n.toNat) = n := by
  apply BitVec.eq_of_toNat_eq
  rw [nOf_toNat, encodeXYN_toNat family x y _ h x.isLt hy n.isLt]
  omega

end EncodedFields

/-! ## Decoding an encoded word -/

/-- Settles O1: each field of the word comes back by the lemma of its format, and the family and the sub-opcode choose the
arm of the decoder. -/
theorem decodeOfEncodeIsTheInstruction : Obligations.DecodeOfEncodeIsTheInstruction := by
  intro i
  cases i with
  | cls | ret => decide
  | jp nnn | call nnn | ldI nnn | jpV0 nnn =>
    simp [encode, decodeWord, familyOf_encodeNNN, nnnOf_encodeNNN]
  | seImm x nn | sneImm x nn | ldImm x nn | addImm x nn | rnd x nn =>
    simp [encode, decodeWord, familyOf_encodeXNN, xOf_encodeXNN, nnOf_encodeXNN]
  | seReg x y n | sneReg x y n | drw x y n =>
    simp [encode, decodeWord, familyOf_encodeXYN, xOf_encodeXYN, yOf_encodeXYN, nOf_encodeXYN, n.isLt]
  | ldReg x y | orReg x y | andReg x y | xorReg x y | addReg x y | sub x y | subn x y =>
    simp [encode, decodeWord, decodeFamily8, familyOf_encodeXYN, field_3_0_encodeXYN, xOf_encodeXYN, yOf_encodeXYN]
  | shr x ign | shl x ign =>
    simp [encode, decodeWord, decodeFamily8, familyOf_encodeXYN, field_3_0_encodeXYN, xOf_encodeXYN,
      yNibbleOf_encodeXYN, ign.isLt]
  | skp x | sknp x =>
    simp [encode, decodeWord, decodeFamilyE, familyOf_encodeXNN, field_7_0_encodeXNN, xOf_encodeXNN]
  | ldVxDt x | ldVxK x | ldDtVx x | ldStVx x | addI x | ldF x | ldB x | stRegs x | ldRegs x =>
    simp [encode, decodeWord, decodeFamilyF, familyOf_encodeXNN, field_7_0_encodeXNN, xOf_encodeXNN]

/-! ## The word of a decoded instruction -/

theorem encode_of_decodeFamily0 {w : Word} {i : Instr} (h : decodeFamily0 w = .ok i) : encode i = w := by
  unfold decodeFamily0 at h
  split_ifs at h with h1 h2 <;> cases h
  · exact h1.symm
  · exact h2.symm

theorem encode_of_decodeFamily8 {w : Word} {i : Instr} (hf : w.toNat / 4096 = 8) (h : decodeFamily8 w = .ok i) :
    encode i = w := by
  unfold decodeFamily8 at h
  rw [field_3_0] at h
  apply BitVec.eq_of_toNat_eq
  rw [encode_toNat]
  split at h <;> cases h <;> simp only [xOf_val, yOf_val, yNibbleOf_toNat] <;> omega

theorem encode_of_decodeFamilyE {w : Word} {i : Instr} (hf : w.toNat / 4096 = 0xE) (h : decodeFamilyE w = .ok i) :
    encode i = w := by
  unfold decodeFamilyE at h
  rw [field_7_0] at h
  apply BitVec.eq_of_toNat_eq
  rw [encode_toNat]
  split at h <;> cases h <;> simp only [xOf_val] <;> omega

theorem encode_of_decodeFamilyF {w : Word} {i : Instr} (hf : w.toNat / 4096 = 0xF) (h : decodeFamilyF w = .ok i) :
    encode i = w := by
  unfold decodeFamilyF at h
  rw [field_7_0] at h
  apply BitVec.eq_of_toNat_eq
  rw [encode_toNat]
  split at h <;> cases h <;> simp only [xOf_val] <;> omega

/-- Settles O2: family by family, the number of the instruction's word is the number of the word it was decoded from. -/
theorem encodeOfDecodeIsTheWord : Obligations.EncodeOfDecodeIsTheWord := by
  intro w i h
  have hw := w.isLt
  unfold decodeWord at h
  rw [familyOf_eq] at h
  split at h
  case h_1 => exact encode_of_decodeFamily0 h
  case h_9 hf => exact encode_of_decodeFamily8 hf h
  case h_15 hf => exact encode_of_decodeFamilyE hf h
  case h_16 => exact encode_of_decodeFamilyF (by simp only [imp_false] at *; omega) h
  all_goals
    cases h
    apply BitVec.eq_of_toNat_eq
    rw [encode_toNat]
    simp only [xOf_val, yOf_val, nOf_toNat, nnOf_toNat, nnnOf_toNat]
    omega

/-! ## The opcode table -/

theorem row_mem_opcodeTable (i : Instr) : i.row ∈ opcodeTable := by
  cases i <;> simp [Instr.row, opcodeTable, opcodeRows1, opcodeRows2, opcodeRows3]

/-- The family `Laws.EncodesRow` has a lemma for every constructor. -/
theorem encode_matches_row (i : Instr) : encode i &&& i.row.mask = i.row.pattern := by
  open Laws.EncodesRow in
  cases i
  exacts [cls, ret, jp _, call _, seImm _ _, sneImm _ _, seReg _ _ _, ldImm _ _, addImm _ _, ldReg _ _, orReg _ _,
    andReg _ _, xorReg _ _, addReg _ _, sub _ _, shr _ _, subn _ _, shl _ _, sneReg _ _ _, ldI _, jpV0 _, rnd _ _,
    drw _ _ _, skp _, sknp _, ldVxDt _, ldVxK _, ldDtVx _, ldStVx _, addI _, ldF _, ldB _, stRegs _, ldRegs _]

/-- A word of a row with mask F000 has the family of the row's pattern. -/
theorem familyOf_of_mask_F000 {w p : Word} (h : w &&& 0xF000#16 = p) : familyOf w = p.toNat / 4096 := by
  subst h
  rw [familyOf_eq, and_mask_F000]
  omega

/-- A word of a row with mask F00F has the family and the low nibble of the row's pattern. -/
theorem familyOf_field_of_mask_F00F {w p : Word} (h : w &&& 0xF00F#16 = p) :
    familyOf w = p.toNat / 4096 ∧ field w 3 0 = p.toNat % 16 := by
  subst h
  rw [familyOf_eq, field_3_0, and_mask_F00F]
  omega

/-- A word of a row with mask F0FF has the family and the low byte of the row's pattern. -/
theorem familyOf_field_of_mask_F0FF {w p : Word} (h : w &&& 0xF0FF#16 = p) :
    familyOf w = p.toNat / 4096 ∧ field w 7 0 = p.toNat % 256 := by
  subst h
  rw [familyOf_eq, field_7_0, and_mask_F0FF]
  omega

/-- A word that matches a row decodes to an instruction of that row: the mask fixes the family and the sub-opcode, which
choose the arm of the decoder. -/
theorem exists_decode_of_matches_row {w : Word} {r : Row} (hr : r ∈ opcodeTable) (h : w &&& r.mask = r.pattern) :
    ∃ i, decodeWord w = .ok i ∧ i.row = r := by
  have exact_word {p : Word} (hm : w &&& 0xFFFF#16 = p) : w = p := by
    rwa [show (0xFFFF#16 : Word) = BitVec.allOnes 16 from rfl, BitVec.and_allOnes] at hm
  simp only [opcodeTable, opcodeRows1, opcodeRows2, opcodeRows3, List.cons_append, List.nil_append, List.mem_cons,
    List.not_mem_nil, or_false] at hr
  rcases hr with rfl | rfl | hr
  · exact ⟨.cls, by rw [exact_word h]; decide, rfl⟩
  · exact ⟨.ret, by rw [exact_word h]; decide, rfl⟩
  rcases hr with rfl | rfl | rfl | rfl | rfl | rfl | rfl | hr
  iterate 7
    · rw [decodeWord, familyOf_of_mask_F000 h]
      exact ⟨_, rfl, rfl⟩
  rcases hr with rfl | rfl | rfl | rfl | rfl | rfl | rfl | rfl | rfl | hr
  iterate 9
    · obtain ⟨hf, hn⟩ := familyOf_field_of_mask_F00F h
      rw [decodeWord, hf]
      show ∃ i, decodeFamily8 w = .ok i ∧ _
      rw [decodeFamily8, hn]
      exact ⟨_, rfl, rfl⟩
  rcases hr with rfl | rfl | rfl | rfl | rfl | hr
  iterate 5
    · rw [decodeWord, familyOf_of_mask_F000 h]
      exact ⟨_, rfl, rfl⟩
  rcases hr with rfl | rfl | hr
  iterate 2
    · obtain ⟨hf, hn⟩ := familyOf_field_of_mask_F0FF h
      rw [decodeWord, hf]
      show ∃ i, decodeFamilyE w = .ok i ∧ _
      rw [decodeFamilyE, hn]
      exact ⟨_, rfl, rfl⟩
  rcases hr with rfl | rfl | rfl | rfl | rfl | rfl | rfl | rfl | rfl
  iterate 9
    · obtain ⟨hf, hn⟩ := familyOf_field_of_mask_F0FF h
      rw [decodeWord, hf]
      show ∃ i, decodeFamilyF w = .ok i ∧ _
      rw [decodeFamilyF, hn]
      exact ⟨_, rfl, rfl⟩

theorem decode_matches_row {w : Word} {i : Instr} (h : decodeWord w = .ok i) :
    i.row ∈ opcodeTable ∧ w &&& i.row.mask = i.row.pattern := by
  rw [← encodeOfDecodeIsTheWord w i h]
  exact ⟨row_mem_opcodeTable i, encode_matches_row i⟩

/-- Settles O3: the row a word matches is the row of what it decodes to, so two rows that it matches are one. -/
theorem decoderAgreesWithOpcodeTable : Obligations.DecoderAgreesWithOpcodeTable := by
  intro w
  refine ⟨fun i => decode_matches_row, ⟨?_, ?_⟩, ?_⟩
  · rintro ⟨i, hi⟩
    exact ⟨i.row, decode_matches_row hi⟩
  · rintro ⟨r, hr, h⟩
    obtain ⟨i, hi, -⟩ := exists_decode_of_matches_row hr h
    exact ⟨i, hi⟩
  · intro r hr r' hr' h h'
    obtain ⟨i, hi, hir⟩ := exists_decode_of_matches_row hr h
    obtain ⟨j, hj, hjr⟩ := exists_decode_of_matches_row hr' h'
    obtain rfl : i = j := Except.ok.inj (hi.symm.trans hj)
    exact hir.symm.trans hjr

theorem legalWord_iff_decodes (w : Word) : legalWord w = true ↔ ∃ i, decodeWord w = .ok i := by
  rw [(decoderAgreesWithOpcodeTable w).2.1]
  simp [legalWord, Row.matchesWord]

theorem legalWord_of_decode {w : Word} {i : Instr} (h : decodeWord w = .ok i) : legalWord w = true :=
  (legalWord_iff_decodes w).2 ⟨i, h⟩

/-! ## Words that do not decode -/

theorem decodeFamily0_error_iff (w : Word) : decodeFamily0 w = .error (.unknownOpcode w) ↔
    w.toNat ≠ 0x00E0 ∧ w.toNat ≠ 0x00EE := by
  have hcls : w = 0x00E0 ↔ w.toNat = 0x00E0 := BitVec.toNat_eq
  have hret : w = 0x00EE ↔ w.toNat = 0x00EE := BitVec.toNat_eq
  unfold decodeFamily0
  split_ifs <;> simp_all

theorem decodeFamily8_error_iff (w : Word) : decodeFamily8 w = .error (.unknownOpcode w) ↔
    w.toNat % 16 ∈ [0x8, 0x9, 0xA, 0xB, 0xC, 0xD, 0xF] := by
  unfold decodeFamily8
  rw [field_3_0]
  split
  case h_10 => simp only [imp_false] at *; simp; omega
  all_goals simp [*]

theorem decodeFamilyE_error_iff (w : Word) : decodeFamilyE w = .error (.unknownOpcode w) ↔
    w.toNat % 256 ∉ [0x9E, 0xA1] := by
  unfold decodeFamilyE
  rw [field_7_0]
  split <;> simp_all

theorem decodeFamilyF_error_iff (w : Word) : decodeFamilyF w = .error (.unknownOpcode w) ↔
    w.toNat % 256 ∉ [0x07, 0x0A, 0x15, 0x18, 0x1E, 0x29, 0x33, 0x55, 0x65] := by
  unfold decodeFamilyF
  rw [field_7_0]
  split <;> simp_all

/-- Settles O4: four families dispatch further, and in the others every word decodes. -/
theorem illegalWordsAreRejectedByName : Obligations.IllegalWordsAreRejectedByName := by
  intro w
  rw [← decodeFamily0_error_iff, ← decodeFamily8_error_iff, ← decodeFamilyE_error_iff, ← decodeFamilyF_error_iff]
  have hw := w.isLt
  unfold decodeWord
  rw [familyOf_eq]
  split
  case h_16 =>
    have hf : w.toNat / 4096 = 0xF := by simp only [imp_false] at *; omega
    simp [hf]
  all_goals simp [*]

theorem exists_error_of_illegal {w : Word} (h : legalWord w = false) : ∃ e, decodeWord w = .error e := by
  cases hd : decodeWord w with
  | ok i => simp [legalWord_of_decode hd] at h
  | error e => exact ⟨e, rfl⟩

theorem legalWord_of_error {w : Word} {e : DecodeError} (h : decodeWord w = .error e) : legalWord w = false := by
  rw [← Bool.not_eq_true, legalWord_iff_decodes, h]
  rintro ⟨i, hi⟩
  cases hi

/-- Settles O6: the decoder evaluated on ten words. -/
theorem writtenWordsDecode : Obligations.WrittenWordsDecode := by
  unfold Obligations.WrittenWordsDecode
  decide

end Sys2Proof

namespace Sys2Proof.Machine

theorem State.advance_eq (s : State) (n : Nat) : s.advance n = s.setPc (s.pc + BitVec.ofNat 16 n) :=
  congrArg s.setPc (s.advance_pc n)

/-- Settles O5: a family-0 word but two is illegal, and which of the two things an illegal word does the policy says. -/
theorem familyZeroWords : Obligations.FamilyZeroWords := by
  intro w hw
  refine ⟨fun h => by rw [h]; decide, fun h => by rw [h]; decide, fun hcls hret s => ?_⟩
  have hf : familyOf w = 0 := by rw [familyOf_eq]; omega
  have hd : decodeWord w = .error (.unknownOpcode w) :=
    (illegalWordsAreRejectedByName w).2
      (.inl ⟨by omega, fun h => hcls (BitVec.eq_of_toNat_eq h), fun h => hret (BitVec.eq_of_toNat_eq h)⟩)
  rw [runWord_error hd]
  refine ⟨fun hp => if_neg (by simp [hp]), fun hp => (if_pos ⟨hp, hf⟩).trans ?_⟩
  rw [State.advance_eq]
  rfl

/-- Settles O7: no meaning takes the ignored nibble. -/
theorem ignoredNibblesChangeNothing : Obligations.IgnoredNibblesChangeNothing :=
  fun _ _ _ _ => ⟨rfl, rfl, rfl, rfl⟩

end Sys2Proof.Machine
end

section
/-! Execution as a check and an effect (R12, R260): every check of an instruction stands before its first write, so
`exec` either raises on the state it is given or answers the state `completed` says. -/

namespace Sys2Proof.Machine

/-- How many bytes from I on an instruction accesses (R203, R204, R205, R240). -/
def accessLength : Instr → Nat
  | .ldB _ => 3
  | .stRegs x | .ldRegs x => x.val + 1
  | .drw _ _ n => n.toNat
  | _ => 0

/-- The check of a data access (R263). -/
def accessCheck (i : Instr) (s : State) : Option (FaultKind × Option Nat) :=
  (lowestOutOfRange s.I.toNat (accessLength i)).map (fun a => (.memOutOfRange, some a))

/-- The check of an instruction that fails, as the kind and the address of the record it raises (R261). -/
def failingCheck (i : Instr) (s : State) : Option (FaultKind × Option Nat) :=
  match i with
  | .ret => if s.sp.val = 0 then some (.stackUnderflow, none) else none
  | .call _ => if s.sp.val = 16 then some (.stackOverflow, none) else none
  | .skp x | .sknp x =>
    if (s.v x).toNat > 15 then some (.keyIndexOutOfRange, some (s.v x).toNat) else none
  | i => accessCheck i s

/-- The framebuffer with the redraw flag raised, as CLS and DRW leave them (R32). -/
def State.setScreen (s : State) (fb : Framebuffer) : State := { s with fb := fb, redraw := true }

/-- What RET does to a stack that is not empty (R121). -/
def State.popPc (s : State) : State :=
  { s with
    sp := ⟨s.sp.val - 1, by omega⟩
    pc := BitVec.ofNat 16 ((s.stack.get ⟨s.sp.val - 1, by omega⟩).toNat + 2) }

/-- What CALL does to a stack that is not full (R123). -/
def State.pushPc (s : State) : State :=
  { s with stack := s.stack.setIfInBounds s.sp.val s.pc, sp := Fin.ofNat 17 (s.sp.val + 1) }

/-- What DRW makes of the framebuffer, and whether a pixel collided (R240). -/
def drawnSprite (x y : Reg) (n : Nibble) (s : State) : Framebuffer × Bool :=
  drawRows (s.v x) (s.v y) 0 (s.fb, false) (s.readBytes s.I.toNat n.toNat)

/-- The state an instruction leaves when its check passes. Where the check fails, the value means nothing. -/
def completed (i : Instr) (s : State) : State :=
  match i with
  | .cls => (s.setScreen (Vector.replicate 32 0)).advance 2
  | .ret => s.popPc
  | .call nnn => s.pushPc.setPc (targetOf nnn)
  | .jp nnn => s.setPc (targetOf nnn)
  | .jpV0 nnn => s.setPc (offsetTarget nnn (s.v 0))
  | .seImm x nn => s.advance (if s.v x == nn then 4 else 2)
  | .sneImm x nn => s.advance (if s.v x != nn then 4 else 2)
  | .seReg x y _ => s.advance (if s.v x == s.v y then 4 else 2)
  | .sneReg x y _ => s.advance (if s.v x != s.v y then 4 else 2)
  | .skp x => s.advance (if s.key (Fin.ofNat 16 (s.v x).toNat) == true then 4 else 2)
  | .sknp x => s.advance (if s.key (Fin.ofNat 16 (s.v x).toNat) == false then 4 else 2)
  | .ldImm x nn => (s.setV x nn).advance 2
  | .addImm x nn => (s.setV x (s.v x + nn)).advance 2
  | .ldReg x y => (s.setV x (s.v y)).advance 2
  | .orReg x y => (s.setV x (s.v x ||| s.v y)).advance 2
  | .andReg x y => (s.setV x (s.v x &&& s.v y)).advance 2
  | .xorReg x y => (s.setV x (s.v x ^^^ s.v y)).advance 2
  | .rnd x nn => (s.setV x (s.rndByte &&& nn)).advance 2
  | .ldVxDt x => (s.setV x s.DT).advance 2
  | .ldVxK x => (selectKey s.keys).elim s (fun k => (s.setV x (BitVec.ofNat 8 k.val)).advance 2)
  | .addReg x y => (s.setFlagThenV (carryFlag (s.v x) (s.v y)) x (s.v x + s.v y)).advance 2
  | .sub x y => (s.setFlagThenV (noBorrowFlag (s.v x) (s.v y)) x (s.v x - s.v y)).advance 2
  | .shr x _ => (s.setFlagThenV (shiftRightFlag (s.v x)) x (s.v x >>> 1)).advance 2
  | .subn x y => (s.setFlagThenV (noBorrowFlag (s.v y) (s.v x)) x (s.v y - s.v x)).advance 2
  | .shl x _ => (s.setFlagThenV (shiftLeftFlag (s.v x)) x (s.v x <<< 1)).advance 2
  | .ldDtVx x => { s with DT := s.v x }.advance 2
  | .ldStVx x => { s with ST := s.v x }.advance 2
  | .ldI nnn => (s.setI nnn.toNat).advance 2
  | .addI x => (s.setI (s.I.toNat + (s.v x).toNat)).advance 2
  | .ldF x => (s.setI (glyphAddress (s.v x))).advance 2
  | .ldB x => (s.writeBytes s.I.toNat (decimalDigits (s.v x))).advance 2
  | .stRegs x => (s.writeBytes s.I.toNat (s.regsUpTo x)).advance 2
  | .ldRegs x =>
    ((s.loadRegsFrom 0 (s.readBytes s.I.toNat (x.val + 1))).setI (s.I.toNat + x.val + 1)).advance 2
  | .drw x y n =>
    ((s.setScreen (drawnSprite x y n s).1).setV vf (collisionFlag (drawnSprite x y n s).2)).advance 2

/-- The answer of a check and an effect. -/
def checkedResult (i : Instr) (s t : State) (check : Option (FaultKind × Option Nat)) : Result :=
  check.elim (.next t) (fun f => raise f.1 (some (encode i)) f.2 s)

theorem withAccess_eq_checkedResult (i : Instr) (s t : State) :
    withAccess i (accessLength i) s (.next t) = checkedResult i s t (accessCheck i s) := by
  unfold withAccess accessCheck
  cases lowestOutOfRange s.I.toNat (accessLength i) <;> rfl

theorem execRet_eq_checkedResult (s : State) :
    execRet s = checkedResult .ret s s.popPc (if s.sp.val = 0 then some (.stackUnderflow, none) else none) := by
  unfold execRet State.popPc
  split
  case h_1 h => simp [h, checkedResult]
  case h_2 n hn h => simp [h, checkedResult]

theorem execCall_eq_checkedResult (nnn : Addr) (s : State) :
    execCall nnn s = checkedResult (.call nnn) s (s.pushPc.setPc (targetOf nnn))
      (if s.sp.val = 16 then some (.stackOverflow, none) else none) := by
  unfold execCall State.pushPc
  split
  case isTrue h =>
    have hsp : (⟨s.sp.val + 1, Nat.succ_lt_succ h⟩ : Fin 17) = Fin.ofNat 17 (s.sp.val + 1) :=
      Fin.ext (Nat.mod_eq_of_lt (Nat.succ_lt_succ h)).symm
    have hstack : s.stack.set s.sp.val s.pc h = s.stack.setIfInBounds s.sp.val s.pc :=
      Vector.ext fun j hj => by rw [Vector.getElem_set, Vector.getElem_setIfInBounds]
    rw [if_neg h.ne, hsp, hstack]
    rfl
  case isFalse h =>
    rw [if_pos (by omega)]
    rfl

theorem skipOnKey_eq_checkedResult (i : Instr) (x : Reg) (wanted : Bool) (s : State) :
    skipOnKey i x wanted s = checkedResult i s
      (s.advance (if s.key (Fin.ofNat 16 (s.v x).toNat) == wanted then 4 else 2))
      (if (s.v x).toNat > 15 then some (.keyIndexOutOfRange, some (s.v x).toNat) else none) := by
  unfold skipOnKey
  by_cases h : (s.v x).toNat > 15
  · rw [keyIndex_of_gt h, if_pos h]
    rfl
  · have hk : keyIndex (s.v x) = some (Fin.ofNat 16 (s.v x).toNat) :=
      keyIndex_of_lt (Nat.mod_eq_of_lt (by omega)).symm
    rw [hk, if_neg h]
    rfl

/-- Every instruction is its check and its effect. -/
theorem exec_eq_checkedResult (i : Instr) (s : State) :
    exec i s = checkedResult i s (completed i s) (failingCheck i s) := by
  cases i with
  | ret => exact execRet_eq_checkedResult s
  | call nnn => exact execCall_eq_checkedResult nnn s
  | skp x | sknp x => exact skipOnKey_eq_checkedResult _ x _ s
  | ldB x => exact withAccess_eq_checkedResult (.ldB x) s _
  | stRegs x => exact withAccess_eq_checkedResult (.stRegs x) s _
  | ldRegs x => exact withAccess_eq_checkedResult (.ldRegs x) s _
  | drw x y n => exact withAccess_eq_checkedResult (.drw x y n) s _
  | ldVxK x =>
    show execLdVxK x s = .next ((selectKey s.keys).elim s _)
    unfold execLdVxK
    cases selectKey s.keys <;> rfl
  | cls | jp | jpV0 | ldI | addI | ldF | ldDtVx | ldStVx => rfl
  | seImm | sneImm | seReg | sneReg => rfl
  | ldImm | addImm | ldReg | orReg | andReg | xorReg | rnd | ldVxDt => rfl
  | addReg | sub | shr | subn | shl => rfl

/-- An instruction whose check passes completes. -/
theorem exec_of_passes {i : Instr} {s : State} (h : failingCheck i s = none) : exec i s = .next (completed i s) := by
  rw [exec_eq_checkedResult, h]
  rfl

/-- An instruction whose check fails raises it and does nothing else (R260). -/
theorem exec_of_fails {i : Instr} {s : State} {kind : FaultKind} {addr : Option Nat}
    (h : failingCheck i s = some (kind, addr)) :
    exec i s = .next { s with status := .faulted ⟨kind, s.pc, some (encode i), addr⟩ } := by
  rw [exec_eq_checkedResult, h]
  rfl

end Sys2Proof.Machine
end

section
/-! Frames (Safety.lean's OnlyChanges): one lemma per update of the state, and from them the parts an instruction may
change. -/

namespace Sys2Proof.Machine

theorem Part.same_trans {s t u : State} {p : Part} (h : p.same s t) (h' : p.same t u) : p.same s u := by
  cases p <;> exact Eq.trans h' h

namespace OnlyChanges

variable {s t u : State} {c c' : Part → Prop}

theorem mono (h : OnlyChanges s t c) (hc : ∀ p, c p → c' p) : OnlyChanges s t c' :=
  fun p hp => h p fun hcp => hp (hc p hcp)

theorem trans (h : OnlyChanges s t c) (h' : OnlyChanges t u c') : OnlyChanges s u (fun p => c p ∨ c' p) :=
  fun p hp => Part.same_trans (h p fun hc => hp (.inl hc)) (h' p fun hc => hp (.inr hc))

theorem setPc (s : State) (w : Word) : OnlyChanges s (s.setPc w) (fun p => p = .pc) := by
  intro p hp
  cases p with
  | pc => exact absurd rfl hp
  | _ => rfl

theorem advance (s : State) (n : Nat) : OnlyChanges s (s.advance n) (fun p => p = .pc) := setPc s _

/-- An update followed by the move to the next instruction. -/
theorem thenAdvance (h : OnlyChanges s t c) (n : Nat) : OnlyChanges s (t.advance n) (fun p => p = .pc ∨ c p) :=
  (h.trans (advance t n)).mono fun _ => Or.symm

theorem setV (s : State) (x : Reg) (b : Byte) : OnlyChanges s (s.setV x b) (fun p => p = .reg x) := by
  intro p hp
  cases p with
  | reg y => exact State.setV_v_other (fun h => hp (congrArg Part.reg h)) s b
  | _ => rfl

theorem setFlagThenV (s : State) (flag : Byte) (x : Reg) (b : Byte) :
    OnlyChanges s (s.setFlagThenV flag x b) (fun p => p = .reg x ∨ p = .reg vf) :=
  ((setV s vf flag).trans (setV _ x b)).mono fun _ => Or.symm

theorem setI (s : State) (n : Nat) : OnlyChanges s (s.setI n) (fun p => p = .addressReg) := by
  intro p hp
  cases p with
  | addressReg => exact absurd rfl hp
  | _ => rfl

theorem setDT (s : State) (b : Byte) : OnlyChanges s { s with DT := b } (fun p => p = .delayTimer) := by
  intro p hp
  cases p with
  | delayTimer => exact absurd rfl hp
  | _ => rfl

theorem setST (s : State) (b : Byte) : OnlyChanges s { s with ST := b } (fun p => p = .soundTimer) := by
  intro p hp
  cases p with
  | soundTimer => exact absurd rfl hp
  | _ => rfl

theorem setScreen (s : State) (fb : Framebuffer) :
    OnlyChanges s (s.setScreen fb) (fun p => p = .redraw ∨ ∃ x y, p = .pixel x y) := by
  intro p hp
  cases p with
  | redraw => exact absurd (.inl rfl) hp
  | pixel x y => exact absurd (.inr ⟨x, y, rfl⟩) hp
  | _ => rfl

theorem setStatus (s : State) (st : Status) : OnlyChanges s { s with status := st } (fun p => p = .status) := by
  intro p hp
  cases p with
  | status => exact absurd rfl hp
  | _ => rfl

theorem popPc (s : State) : OnlyChanges s s.popPc (fun p => p = .pc ∨ p = .sp) := by
  intro p hp
  cases p with
  | pc => exact absurd (.inl rfl) hp
  | sp => exact absurd (.inr rfl) hp
  | _ => rfl

theorem pushPc (s : State) :
    OnlyChanges s s.pushPc (fun p => p = .sp ∨ ∃ j : Fin 16, s.sp.val = j.val ∧ p = .stackEntry j) := by
  intro p hp
  cases p with
  | sp => exact absurd (.inl rfl) hp
  | stackEntry j =>
    exact Vector.getElem_setIfInBounds_ne j.isLt fun h => hp (.inr ⟨j, h, rfl⟩)
  | _ => rfl

theorem writeBytes (s : State) (a : Nat) (bytes : List Byte) :
    OnlyChanges s (s.writeBytes a bytes) (fun p => ∃ k, k < bytes.length ∧ p = .byte (a + k)) := by
  intro p hp
  cases p with
  | byte b =>
    refine State.read_writeBytes_outside bytes s a b ?_
    by_contra h
    exact hp ⟨b - a, by omega, congrArg Part.byte (by omega)⟩
  | _ => simp [Part.same]

theorem loadRegsFrom (s : State) (bytes : List Byte) (h : bytes.length ≤ 16) :
    OnlyChanges s (s.loadRegsFrom 0 bytes) (fun p => ∃ i : Reg, i.val < bytes.length ∧ p = .reg i) := by
  intro p hp
  cases p with
  | reg y =>
    refine (State.loadRegsFrom_v bytes s 0 (by omega) y).trans (if_neg fun hy => hp ⟨y, ?_, rfl⟩)
    omega
  | _ => simp [Part.same]

end OnlyChanges

/-- The parts an instruction that completes may change. -/
def mayChange (i : Instr) (s : State) (p : Part) : Prop :=
  match i with
  | .cls => p = .pc ∨ p = .redraw ∨ ∃ x y, p = .pixel x y
  | .ret => p = .pc ∨ p = .sp
  | .call _ => p = .pc ∨ p = .sp ∨ ∃ j : Fin 16, s.sp.val = j.val ∧ p = .stackEntry j
  | .jp _ | .jpV0 _ | .seImm _ _ | .sneImm _ _ | .seReg _ _ _ | .sneReg _ _ _ | .skp _ | .sknp _ => p = .pc
  | .ldImm x _ | .addImm x _ | .ldReg x _ | .orReg x _ | .andReg x _ | .xorReg x _ | .rnd x _ | .ldVxDt x | .ldVxK x =>
    p = .pc ∨ p = .reg x
  | .addReg x _ | .sub x _ | .shr x _ | .subn x _ | .shl x _ => p = .pc ∨ p = .reg x ∨ p = .reg vf
  | .ldDtVx _ => p = .pc ∨ p = .delayTimer
  | .ldStVx _ => p = .pc ∨ p = .soundTimer
  | .ldI _ | .addI _ | .ldF _ => p = .pc ∨ p = .addressReg
  | .ldB _ => p = .pc ∨ ∃ k, k ≤ 2 ∧ p = .byte (s.I.toNat + k)
  | .stRegs x => p = .pc ∨ ∃ i : Reg, i ≤ x ∧ p = .byte (s.I.toNat + i.val)
  | .ldRegs x => p = .pc ∨ p = .addressReg ∨ ∃ i : Reg, i ≤ x ∧ p = .reg i
  | .drw _ _ _ => p = .pc ∨ p = .redraw ∨ p = .reg vf ∨ ∃ px py, p = .pixel px py

/-- The frame of every instruction. -/
theorem completed_onlyChanges (i : Instr) (s : State) : OnlyChanges s (completed i s) (mayChange i s) := by
  cases i with
  | cls => exact (OnlyChanges.setScreen s _).thenAdvance 2
  | ret => exact OnlyChanges.popPc s
  | call nnn => exact ((OnlyChanges.pushPc s).trans (OnlyChanges.setPc _ _)).mono fun _ => Or.symm
  | jp | jpV0 => exact OnlyChanges.setPc s _
  | seImm | sneImm | seReg | sneReg | skp | sknp => exact OnlyChanges.advance s _
  | ldImm | addImm | ldReg | orReg | andReg | xorReg | rnd | ldVxDt => exact (OnlyChanges.setV s _ _).thenAdvance 2
  | ldVxK x =>
    unfold completed
    cases selectKey s.keys with
    | none => exact fun p _ => by cases p <;> rfl
    | some k => exact (OnlyChanges.setV s x _).thenAdvance 2
  | addReg | sub | shr | subn | shl => exact (OnlyChanges.setFlagThenV s _ _ _).thenAdvance 2
  | ldDtVx => exact (OnlyChanges.setDT s _).thenAdvance 2
  | ldStVx => exact (OnlyChanges.setST s _).thenAdvance 2
  | ldI | addI | ldF => exact (OnlyChanges.setI s _).thenAdvance 2
  | ldB x =>
    refine ((OnlyChanges.writeBytes s _ _).thenAdvance 2).mono fun p => Or.imp_right ?_
    rintro ⟨k, hk, rfl⟩
    exact ⟨k, Nat.le_of_lt_succ hk, rfl⟩
  | stRegs x =>
    refine ((OnlyChanges.writeBytes s _ _).thenAdvance 2).mono fun p => Or.imp_right ?_
    rintro ⟨k, hk, rfl⟩
    rw [State.regsUpTo_length] at hk
    exact ⟨⟨k, by omega⟩, Nat.le_of_lt_succ hk, rfl⟩
  | ldRegs x =>
    have hlen := State.readBytes_length (x.val + 1) s s.I.toNat
    refine (((OnlyChanges.loadRegsFrom s _ (by omega)).trans (OnlyChanges.setI _ _)).thenAdvance 2).mono
      fun p => Or.imp_right fun h => h.symm.imp_right ?_
    rintro ⟨i, hi, rfl⟩
    exact ⟨i, Nat.le_of_lt_succ (hi.trans_eq hlen), rfl⟩
  | drw =>
    refine (((OnlyChanges.setScreen s _).trans (OnlyChanges.setV _ vf _)).thenAdvance 2).mono fun p => Or.imp_right ?_
    rintro ((h | h) | h)
    exacts [.inl h, .inr (.inr h), .inr (.inl h)]

end Sys2Proof.Machine
end

section
/-! The Step operation (30_encoding.md R93, 60_exceptions.md R260, R267): everything one Step can do, and what follows for
faults, timers and totality. -/

namespace Sys2Proof.Machine

theorem step_of_halted {s : State} (h : s.status ≠ .running) : step s = .next s := if_neg h

theorem step_of_fetch_ok {s : State} {w : Word} (hs : s.status = .running) (hf : fetch s = .ok w) :
    step s = finish (runWord w s) := by
  simp [step, instructionCycle, hs, hf]

theorem finish_completed {t : State} (h : t.status = .running) : finish (.next t) = .next t.endCycle := if_pos h

theorem finish_raised {t : State} (h : t.status ≠ .running) : finish (.next t) = .next t := if_neg h

/-- What a Step of `s` can lead to: the checks of R267 in their order, then execution. -/
inductive StepOutcome (s : State) : State → Prop
  /-- The machine is not Running (R290). -/
  | halted (hs : s.status ≠ .running) : StepOutcome s s
  /-- No word can be fetched (R81). -/
  | fetchFault {a : Nat} (hs : s.status = .running) (hf : fetch s = .error a) :
    StepOutcome s { s with status := .faulted ⟨.fetchOutOfRange, s.pc, none, some a⟩ }
  /-- The word stands for no instruction (R90). -/
  | illegal {w : Word} (hs : s.status = .running) (hf : fetch s = .ok w) (hw : legalWord w = false)
    (hp : ¬(s.params.sysPolicy = .nop ∧ familyOf w = 0)) :
    StepOutcome s { s with status := .faulted ⟨.unknownOpcode, s.pc, some w, none⟩ }
  /-- The word stands for no instruction, and the policy skips it (D5). -/
  | skipped {w : Word} (hs : s.status = .running) (hf : fetch s = .ok w) (hw : legalWord w = false)
    (hp : s.params.sysPolicy = .nop ∧ familyOf w = 0) : StepOutcome s (s.advance 2).endCycle
  /-- The instruction's check fails. -/
  | raised {w : Word} {i : Instr} {kind : FaultKind} {addr : Option Nat} (hs : s.status = .running)
    (hf : fetch s = .ok w) (hd : decodeWord w = .ok i) (hc : failingCheck i s = some (kind, addr)) :
    StepOutcome s { s with status := .faulted ⟨kind, s.pc, some w, addr⟩ }
  /-- The instruction completes. -/
  | completed {w : Word} {i : Instr} (hs : s.status = .running)
    (hf : fetch s = .ok w) (hd : decodeWord w = .ok i) (hc : failingCheck i s = none) :
    StepOutcome s (completed i s).endCycle

/-- An instruction that completes leaves the status as it is. -/
@[simp] theorem completed_status (i : Instr) (s : State) : (completed i s).status = s.status :=
  completed_onlyChanges i s .status (by cases i <;> simp [mayChange])

/-- The outcome is the Step. -/
theorem StepOutcome.step_eq {s t : State} (h : StepOutcome s t) : step s = .next t := by
  cases h with
  | halted hs => exact step_of_halted hs
  | fetchFault hs hf => exact step_of_fetch_error hs hf
  | illegal hs hf hw hp =>
    obtain ⟨e, hd⟩ := exists_error_of_illegal hw
    rw [step_of_fetch_ok hs hf, runWord_error hd, if_neg hp]
    exact finish_raised (by simp)
  | skipped hs hf hw hp =>
    obtain ⟨e, hd⟩ := exists_error_of_illegal hw
    rw [step_of_fetch_ok hs hf, runWord_error hd, if_pos hp]
    exact finish_completed hs
  | @raised w i kind addr hs hf hd hc =>
    rw [step_of_fetch_ok hs hf, runWord_ok hd, exec_of_fails hc, encodeOfDecodeIsTheWord w i hd]
    exact finish_raised (by simp)
  | completed hs hf hd hc =>
    rw [step_of_fetch_ok hs hf, runWord_ok hd, exec_of_passes hc]
    exact finish_completed ((completed_status _ s).trans hs)

/-- Every state has an outcome: the status, the fetch, the decoder and the instruction's check choose it. -/
theorem exists_stepOutcome (s : State) : ∃ t, StepOutcome s t := by
  by_cases hs : s.status = .running
  case neg => exact ⟨s, .halted hs⟩
  cases hf : fetch s with
  | error a => exact ⟨_, .fetchFault hs hf⟩
  | ok w =>
    cases hd : decodeWord w with
    | ok i =>
      cases hc : failingCheck i s with
      | none => exact ⟨_, .completed hs hf hd hc⟩
      | some f => exact ⟨_, .raised hs hf hd hc⟩
    | error e =>
      have hw := legalWord_of_error hd
      by_cases hp : s.params.sysPolicy = .nop ∧ familyOf w = 0
      · exact ⟨_, .skipped hs hf hw hp⟩
      · exact ⟨_, .illegal hs hf hw hp⟩

theorem step_outcome {s t : State} (h : step s = .next t) : StepOutcome s t := by
  obtain ⟨u, ho⟩ := exists_stepOutcome s
  cases h.symm.trans ho.step_eq
  exact ho

/-- Settles O14: every state has an outcome, and every outcome is a next state. -/
theorem everyStepAnswersNext : Obligations.EveryStepAnswersNext := by
  intro s
  obtain ⟨t, ht⟩ := exists_stepOutcome s
  exact ⟨t, ht.step_eq⟩

/-- Settles O13: a cycle begins with the status. -/
theorem haltedStepChangesNothing : Obligations.HaltedStepChangesNothing := fun _ => step_of_halted

theorem hostRun_steps_of_halted {t : State} (h : t.status ≠ .running) (n : Nat) :
    hostRun (List.replicate n .step) t = .next t := by
  induction n with
  | zero => rfl
  | succ n ih =>
    rw [List.replicate_succ, hostRun, hostAct, step_of_halted h]
    exact ih

/-! ## Faults -/

/-- A Step of a running machine that ends not Running raised one record, with its own pc (R260). -/
theorem StepOutcome.raised_of_halted {s t : State} (h : StepOutcome s t) (hs : s.status = .running)
    (ht : t.status ≠ .running) : ∃ r, t = { s with status := .faulted r } ∧ r.pc = s.pc := by
  cases h with
  | halted h => exact absurd hs h
  | fetchFault | illegal | raised => exact ⟨_, rfl, rfl⟩
  | skipped | completed => simp [hs] at ht

/-- Settles O11: every outcome that halts writes the record alone, and a halted machine stays as it is. -/
theorem faultsArePreciseAndFinal : Obligations.FaultsArePreciseAndFinal :=
  fun _ _ hs h ht => ⟨(step_outcome h).raised_of_halted hs ht, hostRun_steps_of_halted ht⟩

/-- Settles O10: an illegal word is not in family 0, or the policy is `fault`, so it raises. -/
theorem illegalWordFaultsUnchanged : Obligations.IllegalWordFaultsUnchanged := by
  intro s w hs hpc hw hl hpolicy
  refine ⟨?_, rfl⟩
  have hf : fetch s = .ok w := by
    rw [fetch_ok hpc]
    exact congrArg Except.ok (BitVec.eq_of_toNat_eq ((wordOfBytes_toNat _ _).trans hw.symm))
  refine (StepOutcome.illegal hs hf hl ?_).step_eq
  rintro ⟨hnop, hfam⟩
  rw [familyOf_eq] at hfam
  rcases hpolicy with hp | hp
  · simp [hp] at hnop
  · omega

theorem tickDown_eq (t : Byte) : tickDown t = if t = 0 then 0 else t - 1 := by
  unfold tickDown
  by_cases h : t = 0
  · simp [h]
  · rw [if_pos (Nat.pos_of_ne_zero fun h0 => h (BitVec.eq_of_toNat_eq h0)), if_neg h]

theorem decodeWord_of_decodeBytes {high low : Byte} {i : Instr} (h : decodeBytes [high, low] = .ok (i, [])) :
    decodeWord (wordOfBytes high low) = .ok i := by
  rw [decodeBytes] at h
  split at h
  · cases h
    assumption
  · cases h

/-- Settles O8: the fetched word is the one of the two bytes, and the end of the cycle is the tick. -/
theorem stepRunsTheDecodedInstruction : Obligations.StepRunsTheDecodedInstruction := by
  intro s i hs hpc hb
  have hstep : step s = finish (exec i s) := by
    rw [step_of_fetch_ok hs (fetch_ok hpc), runWord_ok (decodeWord_of_decodeBytes hb)]
  obtain ⟨t, ht, -⟩ := CompletesOrRaises.exec i s
  rw [hstep, ht]
  refine ⟨t, rfl, fun hrun => ?_, finish_raised⟩
  rw [finish_completed hrun, ← tickDown_eq, ← tickDown_eq]
  rfl

end Sys2Proof.Machine
end

section
/-! Which check fails (60_exceptions.md R261, R267), and the record it leaves. -/

namespace Sys2Proof.Machine

/-- The checks that can fail, each with its instruction, its condition and the fields of its record. -/
inductive CheckFails (s : State) : Instr → FaultKind → Option Nat → Prop
  | stackUnderflow (h : s.sp.val = 0) : CheckFails s .ret .stackUnderflow none
  | stackOverflow (nnn : Addr) (h : s.sp.val = 16) : CheckFails s (.call nnn) .stackOverflow none
  | skp (x : Reg) (h : (s.v x).toNat > 15) : CheckFails s (.skp x) .keyIndexOutOfRange (some (s.v x).toNat)
  | sknp (x : Reg) (h : (s.v x).toNat > 15) : CheckFails s (.sknp x) .keyIndexOutOfRange (some (s.v x).toNat)
  | access (i : Instr) (hn : accessLength i ≠ 0) (h : s.I.toNat + accessLength i > memSize) :
    CheckFails s i .memOutOfRange (some (max s.I.toNat memSize))

theorem lowestOutOfRange_some {a n m : Nat} (h : lowestOutOfRange a n = some m) :
    n ≠ 0 ∧ a + n > memSize ∧ m = max a memSize := by
  unfold lowestOutOfRange at h
  split at h
  · cases h
  · cases h
    omega

theorem checkFails_of_access {i : Instr} {s : State} {kind : FaultKind} {addr : Option Nat}
    (h : accessCheck i s = some (kind, addr)) : CheckFails s i kind addr := by
  obtain ⟨a, ha, hk⟩ := Option.map_eq_some_iff.1 h
  obtain ⟨hn, hout, rfl⟩ := lowestOutOfRange_some ha
  cases hk
  exact .access i hn hout

theorem checkFails_of_failingCheck {i : Instr} {s : State} {kind : FaultKind} {addr : Option Nat}
    (h : failingCheck i s = some (kind, addr)) : CheckFails s i kind addr := by
  unfold failingCheck at h
  split at h
  case h_5 => exact checkFails_of_access h
  all_goals
    split at h <;> cases h
  · exact .stackUnderflow ‹_›
  · exact .stackOverflow _ ‹_›
  · exact .skp _ ‹_›
  · exact .sknp _ ‹_›

theorem accessLength_ne_zero {i : Instr} (h : accessLength i ≠ 0) :
    (∃ x, i = .ldB x) ∨ (∃ x, i = .stRegs x ∨ i = .ldRegs x) ∨ ∃ x y n, i = .drw x y n ∧ 0 < n.toNat := by
  cases i with
  | ldB x => exact .inl ⟨x, rfl⟩
  | stRegs x => exact .inr (.inl ⟨x, .inl rfl⟩)
  | ldRegs x => exact .inr (.inl ⟨x, .inr rfl⟩)
  | drw x y n => exact .inr (.inr ⟨x, y, n, rfl, Nat.pos_of_ne_zero h⟩)
  | _ => exact absurd rfl h

/-- The record of a failing check has the fields of its kind, the address 0x1000 being the first one outside. -/
theorem CheckFails.record_wf {s : State} {i : Instr} {kind : FaultKind} {addr : Option Nat}
    (h : CheckFails s i kind addr) (hI : s.I.toNat ≤ 0xFFF) (pc w : Word) :
    FaultRecord.wf ⟨kind, pc, some w, addr⟩ := by
  cases h with
  | stackUnderflow | stackOverflow => exact ⟨rfl, rfl⟩
  | skp x h | sknp x h => exact ⟨rfl, _, h, Nat.le_of_lt_succ (s.v x).isLt, rfl⟩
  | access _ hn h => exact ⟨rfl, congrArg some (max_eq_right (Nat.le_succ_of_le hI))⟩

theorem fetchFault_record_wf {s : State} {a : Nat} (h : fetch s = .error a) :
    FaultRecord.wf ⟨.fetchOutOfRange, s.pc, none, some a⟩ := by
  obtain ⟨hpc, ha⟩ := fetch_error_iff h
  exact ⟨hpc, rfl, congrArg some ha⟩

theorem illegal_record_wf {w : Word} (h : legalWord w = false) (pc : Word) :
    FaultRecord.wf ⟨.unknownOpcode, pc, some w, none⟩ := ⟨⟨w, rfl, h⟩, rfl⟩

/-- Settles O12: a Step that raises has one of three outcomes, and in the third the failing check names its instruction. -/
theorem faultIsTheFirstFailingCheck : Obligations.FaultIsTheFirstFailingCheck := by
  intro s t r hinv hs hstep hr
  cases step_outcome hstep with
  | halted h => exact absurd hs h
  | skipped | completed => simp [hs] at hr
  | fetchFault _ hf =>
    cases hr
    refine ⟨fetchFault_record_wf hf, ⟨fun _ => (fetch_error_iff hf).1, fun _ => rfl⟩, rfl, fun w hw => ?_⟩
    cases hf.symm.trans hw
  | @illegal w _ hf hl _ =>
    cases hr
    have hpc := (fetch_ok_iff hf).1
    refine ⟨illegal_record_wf hl _, ⟨nofun, fun h => absurd hpc (by omega)⟩, rfl, fun w' hw' => ?_⟩
    cases hf.symm.trans hw'
    refine ⟨rfl, ⟨fun _ => hl, fun _ => rfl⟩, fun i hi => ?_⟩
    simp [legalWord_of_decode hi] at hl
  | @raised w i kind addr _ hf hd hc =>
    cases hr
    have hpc := (fetch_ok_iff hf).1
    have hfails := checkFails_of_failingCheck hc
    refine ⟨hfails.record_wf hinv.address _ _, ⟨?_, fun h => absurd hpc (by omega)⟩, ?_, fun w' hw' => ?_⟩
    · rintro rfl
      cases hfails
    · cases kind <;> rfl
    cases hf.symm.trans hw'
    refine ⟨rfl, ⟨?_, fun h => by simp [legalWord_of_decode hd] at h⟩, fun j hj => ?_⟩
    · rintro rfl
      cases hfails
    cases hd.symm.trans hj
    cases hfails with
    | stackUnderflow h => exact ⟨rfl, Fin.ext h⟩
    | stackOverflow nnn h => exact ⟨⟨nnn, rfl⟩, Fin.ext h⟩
    | skp x h => exact ⟨x, .inl rfl, h, rfl⟩
    | sknp x h => exact ⟨x, .inr rfl, h, rfl⟩
    | access _ hn h =>
      have hm : memSize = 0x1000 := rfl
      obtain ⟨x, rfl⟩ | ⟨x, rfl | rfl⟩ | ⟨x, y, n, rfl, hpos⟩ := accessLength_ne_zero hn
      all_goals rw [accessLength] at h
      · exact .inl ⟨x, rfl, by omega⟩
      · exact .inr (.inl ⟨x, .inl rfl, by omega⟩)
      · exact .inr (.inl ⟨x, .inr rfl, by omega⟩)
      · exact .inr (.inr ⟨x, y, n, rfl, hpos, by omega⟩)

theorem failingCheck_of_access {i : Instr} (hn : accessLength i ≠ 0) (s : State) :
    failingCheck i s = accessCheck i s := by
  obtain ⟨x, rfl⟩ | ⟨x, rfl | rfl⟩ | ⟨x, y, n, rfl, -⟩ := accessLength_ne_zero hn <;> rfl

/-- A data access inside memory completes. -/
theorem exec_access_inside {i : Instr} {s : State} (hi : failingCheck i s = accessCheck i s)
    (h : accessLength i = 0 ∨ s.I.toNat + accessLength i ≤ memSize) : exec i s = .next (completed i s) := by
  refine exec_of_passes ?_
  rw [hi, accessCheck, lowestOutOfRange_none.2 h]
  rfl

/-- A data access that leaves memory raises before its first access, with 0x1000 (R263). -/
theorem exec_access_outside {i : Instr} {s : State} (hI : s.I.toNat ≤ 0xFFF)
    (h : s.I.toNat + accessLength i > memSize) : exec i s =
      .next { s with status := .faulted ⟨.memOutOfRange, s.pc, some (encode i), some 0x1000⟩ } := by
  have hm : memSize = 0x1000 := rfl
  have hlow : lowestOutOfRange s.I.toNat (accessLength i) = some 0x1000 :=
    (if_neg (by omega)).trans (congrArg some (by omega))
  refine exec_of_fails ?_
  rw [failingCheck_of_access (by omega), accessCheck, hlow]
  rfl

/-- Settles O44: the length is `accessLength`, and a record of this kind comes from the access check alone. -/
theorem dataAccessOutsideMemoryFaults : Obligations.DataAccessOutsideMemoryFaults := by
  intro i n s hs hI hn
  have hlen : n = accessLength i := by rw [hn]; cases i <;> rfl
  subst hlen
  have hm : memSize = 0x1000 := rfl
  refine ⟨?_, fun hin t r ht hr hkind => ?_⟩
  · rintro ⟨k, hk, hout⟩
    exact exec_access_outside hI (by omega)
  · cases hc : failingCheck i s with
    | none =>
      cases ht.symm.trans (exec_of_passes hc)
      simp [hs] at hr
    | some f =>
      obtain ⟨kind, addr⟩ := f
      cases ht.symm.trans (exec_of_fails hc)
      cases hr
      cases hkind
      cases checkFails_of_failingCheck hc with
      | access _ hlen hout =>
        have hlast := hin (accessLength i - 1) (by omega)
        omega

end Sys2Proof.Machine
end

section
/-! Rules about the whole machine: what one Step leaves alone, the timers, the program counter, and the free byte. -/

namespace Sys2Proof.Machine

/-! ## The frame of a Step -/

theorem OnlyChanges.endCycle (s : State) : OnlyChanges s s.endCycle
    (fun p => p = .delayTimer ∨ p = .soundTimer ∨ p = .phase ∨ p = .cycle) := by
  intro p hp
  cases p with
  | delayTimer | soundTimer | phase | cycle => simp at hp
  | _ => rfl

/-- The parts every Step may change; any other part that changes was changed by the instruction that ran. -/
def changesEveryStep (p : Part) : Prop :=
  p = .status ∨ p = .pc ∨ p = .delayTimer ∨ p = .soundTimer ∨ p = .phase ∨ p = .cycle

theorem StepOutcome.onlyChanges {s t : State} (h : StepOutcome s t) : OnlyChanges s t
    (fun p => changesEveryStep p ∨ ∃ w i, fetch s = .ok w ∧ decodeWord w = .ok i ∧ mayChange i s p) := by
  cases h with
  | halted => exact fun p _ => by cases p <;> rfl
  | fetchFault | illegal | raised => exact (OnlyChanges.setStatus s _).mono fun p hp => .inl (.inl hp)
  | skipped =>
    exact ((OnlyChanges.advance s 2).trans (OnlyChanges.endCycle _)).mono fun p hp => .inl (.inr hp)
  | @completed w i _ hf hd _ =>
    refine ((completed_onlyChanges i s).trans (OnlyChanges.endCycle _)).mono fun p hp => ?_
    exact hp.elim (fun hi => .inr ⟨w, i, hf, hd, hi⟩) fun ht => .inl (.inr (.inr ht))

/-- A part that a Step changes, and that not every Step may change, is one its instruction may change. -/
theorem changed_by_instruction {s t : State} {p : Part} (h : step s = .next t) (hp : ¬ p.same s t)
    (hother : ¬ changesEveryStep p) : ∃ w i, fetch s = .ok w ∧ decodeWord w = .ok i ∧ mayChange i s p := by
  by_contra hno
  exact hp ((step_outcome h).onlyChanges p (not_or.2 ⟨hother, hno⟩))

theorem screen_changed_by {i : Instr} {s : State} {p : Part} (h : mayChange i s p)
    (hp : p = .redraw ∨ ∃ x y, p = .pixel x y) : i = .cls ∨ ∃ x y n, i = .drw x y n := by
  obtain rfl | ⟨px, py, rfl⟩ := hp
  all_goals
    cases i with
    | cls => exact .inl rfl
    | drw x y n => exact .inr ⟨x, y, n, rfl⟩
    | _ => simp [mayChange] at h

theorem byte_changed_by {i : Instr} {s : State} {a : Nat} (h : mayChange i s (.byte a)) :
    (∃ x, i = .ldB x ∧ s.I.toNat ≤ a ∧ a ≤ s.I.toNat + 2) ∨
      ∃ x, i = .stRegs x ∧ s.I.toNat ≤ a ∧ a ≤ s.I.toNat + x.val := by
  cases i with
  | ldB x =>
    obtain h | ⟨k, hk, h⟩ := h <;> cases h
    exact .inl ⟨x, rfl, by omega, by omega⟩
  | stRegs x =>
    obtain h | ⟨j, hj, h⟩ := h <;> cases h
    have : j.val ≤ x.val := hj
    exact .inr ⟨x, rfl, by omega, by omega⟩
  | _ => simp [mayChange] at h

/-- Settles O18: a changed framebuffer has a changed pixel. -/
theorem onlyClearAndDrawChangeTheScreen : Obligations.OnlyClearAndDrawChangeTheScreen := by
  intro s t hstep hchanged
  have hpart : ∃ p : Part, (p = .redraw ∨ ∃ x y, p = .pixel x y) ∧ ¬ p.same s t := by
    rcases hchanged with hfb | hredraw
    · by_contra hall
      refine hfb (framebuffer_ext fun x y => ?_)
      by_contra hxy
      exact hall ⟨.pixel x y, .inr ⟨x, y, rfl⟩, hxy⟩
    · exact ⟨.redraw, .inl rfl, hredraw⟩
  obtain ⟨p, hp, hdiff⟩ := hpart
  have hother : ¬ changesEveryStep p := by
    obtain rfl | ⟨x, y, rfl⟩ := hp <;> simp [changesEveryStep]
  obtain ⟨w, i, hf, hd, hi⟩ := changed_by_instruction hstep hdiff hother
  obtain rfl | ⟨x, y, n, rfl⟩ := screen_changed_by hi hp
  · exact ⟨w, hf, .inl hd⟩
  · exact ⟨w, hf, .inr ⟨x, y, n, hd⟩⟩

/-- Settles O19: the bytes an instruction may change are those it stores to. -/
theorem onlyStoresChangeMemory : Obligations.OnlyStoresChangeMemory := by
  intro s t a hstep hdiff
  obtain ⟨w, i, hf, hd, hi⟩ :=
    changed_by_instruction (p := .byte a) hstep hdiff (by simp [changesEveryStep])
  obtain ⟨x, rfl, ha⟩ | ⟨x, rfl, ha⟩ := byte_changed_by hi
  · exact ⟨w, hf, .inl ⟨x, hd, ha⟩⟩
  · exact ⟨w, hf, .inr ⟨x, hd, ha⟩⟩

/-- A part in no instruction's frame reads the same after a Step. -/
theorem step_same {s t : State} {p : Part} (h : step s = .next t) (hother : ¬ changesEveryStep p)
    (hno : ∀ i, ¬ mayChange i s p) : p.same s t := by
  by_contra hdiff
  obtain ⟨w, i, -, -, hi⟩ := changed_by_instruction h hdiff hother
  exact hno i hi

theorem step_key {s t : State} (h : step s = .next t) (k : Fin 16) : t.key k = s.key k :=
  step_same (p := .key k) h (by simp [changesEveryStep]) fun i => by cases i <;> simp [mayChange]

theorem step_params {s t : State} (h : step s = .next t) : t.params = s.params :=
  step_same (p := .params) h (by simp [changesEveryStep]) fun i => by cases i <;> simp [mayChange]

/-- The instructions that write the redraw flag set it. -/
theorem completed_redraw {i : Instr} {s : State} (h : s.redraw = true) : (completed i s).redraw = true := by
  cases i with
  | cls | drw => rfl
  | _ => exact (completed_onlyChanges _ s .redraw (by simp [mayChange])).trans h

/-- Settles O17: the keys are in no instruction's frame, and the flag is only ever set. -/
theorem stepNeverWritesKeysNorClearsRedraw : Obligations.StepNeverWritesKeysNorClearsRedraw := by
  intro s t h
  refine ⟨Vector.ext fun k hk => step_key h ⟨k, hk⟩, fun hr => ?_⟩
  cases step_outcome h with
  | halted | fetchFault | illegal | raised | skipped => exact hr
  | completed => exact completed_redraw hr

/-- Settles O20: a register an instruction changes is in its frame. -/
theorem onlySixInstructionsWriteTheFlag : Obligations.OnlySixInstructionsWriteTheFlag := by
  intro i s t h hdiff
  have hvf : mayChange i s (.reg vf) := by
    by_contra hno
    cases hc : failingCheck i s with
    | none =>
      cases h.symm.trans (exec_of_passes hc)
      exact hdiff (completed_onlyChanges i s _ hno)
    | some f =>
      cases h.symm.trans (exec_of_fails hc)
      exact hdiff rfl
  cases i with
  | addReg | sub | shr | subn | shl | drw => trivial
  | ldImm x | addImm x | ldReg x | orReg x | andReg x | xorReg x | rnd x | ldVxDt x | ldVxK x =>
    obtain h | h := hvf <;> cases h
    rfl
  | ldRegs x =>
    obtain h | h | ⟨j, hj, h⟩ := hvf <;> cases h
    exact Fin.last_le_iff.1 hj
  | _ => simp [mayChange] at hvf

/-! ## The timers -/

theorem completed_DT (i : Instr) (s : State) : (completed i s).DT = match i with
    | .ldDtVx x => s.v x
    | _ => s.DT := by
  cases i with
  | ldDtVx => rfl
  | _ => exact completed_onlyChanges _ s .delayTimer (by simp [mayChange])

theorem completed_ST (i : Instr) (s : State) : (completed i s).ST = match i with
    | .ldStVx x => s.v x
    | _ => s.ST := by
  cases i with
  | ldStVx => rfl
  | _ => exact completed_onlyChanges _ s .soundTimer (by simp [mayChange])

/-- Settles O15: a completed cycle ends with the tick of the timers the instruction left, and a record leaves them alone. -/
theorem timersTickOncePerCompletedCycle : Obligations.TimersTickOncePerCompletedCycle := by
  intro s t hs hstep
  cases step_outcome hstep with
  | halted h => exact absurd hs h
  | fetchFault | illegal | raised => exact ⟨nofun, fun _ => ⟨rfl, rfl⟩⟩
  | @skipped w _ hf hw =>
    refine ⟨fun _ w' hf' => ?_, fun h => absurd hs h⟩
    cases hf.symm.trans hf'
    obtain ⟨e, hd⟩ := exists_error_of_illegal hw
    rw [hd]
    exact ⟨tickDown_toNat _, tickDown_toNat _⟩
  | @completed w i _ hf hd =>
    refine ⟨fun _ w' hf' => ?_, fun h => absurd ((completed_status i s).trans hs) h⟩
    cases hf.symm.trans hf'
    rw [hd, State.endCycle_DT, State.endCycle_ST, tickDown_toNat, tickDown_toNat, completed_DT, completed_ST]
    cases i <;> exact ⟨rfl, rfl⟩

/-! ## The program counter -/

theorem targetOf_toNat (nnn : Addr) : (targetOf nnn).toNat = nnn.toNat := by
  simp only [targetOf, BitVec.toNat_ofNat]
  omega

theorem offsetTarget_toNat (nnn : Addr) (v0 : Byte) : (offsetTarget nnn v0).toNat = nnn.toNat + v0.toNat := by
  simp only [offsetTarget, BitVec.toNat_ofNat]
  omega

theorem State.advance_pc_toNat {s : State} {n : Nat} (h : s.pc.toNat + n < 65536) :
    (s.advance n).pc.toNat = s.pc.toNat + n := by
  simp only [State.advance, BitVec.toNat_ofNat]
  omega

/-- A skip moves pc over one word or two. -/
theorem State.advance_skip_pc_toNat {s : State} (h : s.pc.toNat ≤ 0xFFE) (c : Bool) :
    (s.advance (if c then 4 else 2)).pc.toNat = s.pc.toNat + 2 ∨
      (s.advance (if c then 4 else 2)).pc.toNat = s.pc.toNat + 4 := by
  cases c
  · exact .inl (State.advance_pc_toNat (by simp; omega))
  · exact .inr (State.advance_pc_toNat (by simp; omega))

/-- A completed cycle of a decoded instruction is that instruction, with its check passed. -/
theorem StepOutcome.completed_of_running {s t : State} {w : Word} {i : Instr} (h : StepOutcome s t)
    (hs : s.status = .running) (hf : fetch s = .ok w) (hd : decodeWord w = .ok i) (ht : t.status = .running) :
    failingCheck i s = none ∧ t = (Machine.completed i s).endCycle := by
  cases h with
  | halted h => exact absurd hs h
  | fetchFault | illegal | raised => cases ht
  | skipped _ hf' hw =>
    cases hf.symm.trans hf'
    simp [legalWord_of_decode hd] at hw
  | completed _ hf' hd' hc =>
    cases hf.symm.trans hf'
    cases hd.symm.trans hd'
    exact ⟨hc, rfl⟩

theorem exists_key_iff_selectKey (s : State) : (∃ k, s.key k = true) ↔ ∃ k, selectKey s.keys = some k :=
  ⟨fun ⟨_, h⟩ => selectKey_some h, fun ⟨k, h⟩ => ⟨k, selectKey_pressed h⟩⟩

/-- Settles O16: pc is at most 0xFFE where a word is fetched, and a stack entry is at most 0xFFE, so no sum wraps. -/
theorem programCounterAfterCompletedCycle : Obligations.ProgramCounterAfterCompletedCycle := by
  intro s t w i hinv hs hf hd hstep ht
  have hpc := (fetch_ok_iff hf).1
  have htwo : (s.advance 2).pc.toNat = s.pc.toNat + 2 := State.advance_pc_toNat (by omega)
  obtain ⟨hc, rfl⟩ := (step_outcome hstep).completed_of_running hs hf hd ht
  rw [State.endCycle_pc]
  cases i with
  | jp nnn | call nnn => exact targetOf_toNat nnn
  | jpV0 nnn => exact offsetTarget_toNat nnn _
  | ret =>
    have hsp : s.sp.val ≠ 0 := fun h => by simp [failingCheck, h] at hc
    have hentry := hinv.entries ⟨s.sp.val - 1, by omega⟩
    refine ⟨⟨s.sp.val - 1, by omega⟩, by simp only; omega, ?_⟩
    simp only [completed, State.popPc, BitVec.toNat_ofNat]
    omega
  | seImm | sneImm | seReg | sneReg | skp | sknp => exact State.advance_skip_pc_toNat hpc _
  | ldVxK x =>
    simp only [exists_key_iff_selectKey, completed]
    cases selectKey s.keys with
    | none => simp
    | some k => simpa using htwo
  | ldB | stRegs | ldRegs => simpa [completed] using htwo
  | _ => exact htwo

end Sys2Proof.Machine
end

section
/-! The free byte of a cycle (43_random.md R190): an instruction other than CXNN does not read the index into the free
bytes, so a Step from another index is the same Step. -/

namespace Sys2Proof.Machine

/-- The state at another index of the free bytes. -/
def State.withCycle (s : State) (c : Nat) : State := { s with cycle := c }

/-- Reads of many bytes depend on memory alone. -/
theorem State.readBytes_congr {s t : State} (h : ∀ a, t.read a = s.read a) (n a : Nat) :
    t.readBytes a n = s.readBytes a n := by
  induction n generalizing a with
  | zero => rfl
  | succ n ih => rw [State.readBytes, State.readBytes, h, ih]

/-- Reads of many registers depend on the registers alone. -/
theorem State.regsFrom_congr {s t : State} (h : ∀ x, t.v x = s.v x) (n i : Nat) : t.regsFrom i n = s.regsFrom i n := by
  induction n generalizing i with
  | zero => rfl
  | succ n ih => rw [State.regsFrom, State.regsFrom, h, ih]

section

variable (s : State) (c : Nat)

theorem State.withCycle_read (a : Nat) : (s.withCycle c).read a = s.read a := rfl

theorem State.withCycle_v (x : Reg) : (s.withCycle c).v x = s.v x := rfl

theorem State.withCycle_write (a : Nat) (b : Byte) :
    (s.withCycle c).write a b = (s.write a b).withCycle c := by
  unfold State.write
  split <;> rfl

theorem State.withCycle_writeBytes (bytes : List Byte) (a : Nat) :
    (s.withCycle c).writeBytes a bytes = (s.writeBytes a bytes).withCycle c := by
  induction bytes generalizing s a with
  | nil => rfl
  | cons b rest ih => rw [State.writeBytes, State.writeBytes, State.withCycle_write, ih]

theorem State.withCycle_loadRegsFrom (bytes : List Byte) (i : Nat) :
    (s.withCycle c).loadRegsFrom i bytes = (s.loadRegsFrom i bytes).withCycle c := by
  induction bytes generalizing s i with
  | nil => rfl
  | cons b rest ih => exact ih (s.setV (Fin.ofNat 16 i) b) (i + 1)

theorem drawnSprite_withCycle (x y : Reg) (n : Nibble) :
    drawnSprite x y n (s.withCycle c) = drawnSprite x y n s :=
  congrArg (drawRows (s.v x) (s.v y) 0 (s.fb, false)) (State.readBytes_congr (s.withCycle_read c) n.toNat s.I.toNat)

theorem failingCheck_withCycle (i : Instr) : failingCheck i (s.withCycle c) = failingCheck i s := by cases i <;> rfl

/-- Only CXNN reads the index. -/
theorem completed_withCycle {i : Instr} (h : ∀ x nn, i ≠ .rnd x nn) :
    completed i (s.withCycle c) = (completed i s).withCycle c := by
  cases i with
  | rnd x nn => exact absurd rfl (h x nn)
  | ldVxK x =>
    show (selectKey s.keys).elim _ _ = State.withCycle ((selectKey s.keys).elim _ _) c
    cases selectKey s.keys <;> rfl
  | ldB x => exact congrArg (State.advance · 2) (s.withCycle_writeBytes c _ _)
  | stRegs x =>
    have hregs : (s.withCycle c).regsUpTo x = s.regsUpTo x := State.regsFrom_congr (s.withCycle_v c) _ _
    rw [completed, hregs]
    exact congrArg (State.advance · 2) (s.withCycle_writeBytes c _ _)
  | ldRegs x =>
    have hbytes : (s.withCycle c).readBytes s.I.toNat (x.val + 1) = s.readBytes s.I.toNat (x.val + 1) :=
      State.readBytes_congr (s.withCycle_read c) _ _
    show State.advance (State.setI ((s.withCycle c).loadRegsFrom 0 ((s.withCycle c).readBytes s.I.toNat _)) _) 2 = _
    rw [hbytes, State.withCycle_loadRegsFrom]
    rfl
  | drw x y n =>
    rw [completed, drawnSprite_withCycle]
    rfl
  | _ => rfl

end

theorem completed_cycle (i : Instr) (s : State) : (completed i s).cycle = s.cycle :=
  completed_onlyChanges i s .cycle (by cases i <;> simp [mayChange])

/-- A completed cycle moves the index by one, from wherever it stood. -/
theorem endCycle_withCycle (s : State) {u : State} (h : u.cycle = s.cycle) (c : Nat) :
    (u.withCycle c).endCycle = u.endCycle.withCycle (c + (u.endCycle.cycle - s.cycle)) := by
  rw [State.endCycle_cycle, h, Nat.add_sub_cancel_left]
  rfl

/-- Settles O21: the checks that choose the outcome do not read the index, nor does the instruction. -/
theorem randomByteIsUsedOnlyByRnd : Obligations.RandomByteIsUsedOnlyByRnd := by
  intro s c hrnd
  obtain ⟨t, ht⟩ := exists_stepOutcome s
  refine ⟨t, ht.step_eq, ?_⟩
  show step (s.withCycle c) = .next (t.withCycle (c + (t.cycle - s.cycle)))
  have hfetch : fetch (s.withCycle c) = fetch s := rfl
  apply StepOutcome.step_eq
  cases ht with
  | halted hs =>
    rw [Nat.sub_self]
    exact .halted hs
  | fetchFault hs hf =>
    rw [Nat.sub_self]
    exact .fetchFault hs (hfetch.trans hf)
  | illegal hs hf hw hp =>
    rw [Nat.sub_self]
    exact .illegal hs (hfetch.trans hf) hw hp
  | raised hs hf hd hc =>
    rw [Nat.sub_self]
    exact .raised hs (hfetch.trans hf) hd ((failingCheck_withCycle s c _).trans hc)
  | skipped hs hf hw hp =>
    rw [← endCycle_withCycle s (u := s.advance 2) rfl c]
    exact .skipped hs (hfetch.trans hf) hw hp
  | @completed w i hs hf hd hc =>
    rw [← endCycle_withCycle s (completed_cycle i s) c, ← completed_withCycle s c fun x nn hi => hrnd w x nn hf (hi ▸ hd)]
    exact .completed hs (hfetch.trans hf) hd ((failingCheck_withCycle s c _).trans hc)

end Sys2Proof.Machine
end

section
/-! The invariant (Safety.lean's Inv): reset meets it, every Step and every host action keep it. -/

namespace Sys2Proof.Machine

theorem statusFits_of_running {s : State} (h : s.status = .running) : statusFits s := by
  unfold statusFits
  rw [h]
  trivial

/-- Settles O23: every field the invariant reads is a literal after initialisation. -/
theorem resetMeetsInv : Obligations.ResetMeetsInv := by
  have h (p : Params) : Inv (State.resetWith p) :=
    { memory := reset_memory_wf p
      address := Nat.zero_le _
      counter := show (0x200 : Word).toNat ≤ 0x10FE by decide
      entries := fun j => by simp [State.resetWith, Vector.get_eq_getElem]
      fits := trivial }
  exact ⟨h defaultParams, h⟩

theorem completed_memory_wf (i : Instr) {s : State} (h : Memory.wf s.params.fontset s.mem = true) :
    Memory.wf (completed i s).params.fontset (completed i s).mem = true := by
  cases i with
  | ldB | stRegs => exact State.writeBytes_wf _ h _
  | ldRegs => simpa [completed] using h
  | ldVxK x =>
    unfold completed
    cases selectKey s.keys <;> exact h
  | _ => exact h

/-- Every write to I is masked to 12 bits (R24). -/
theorem masked_address (n : Nat) : (BitVec.ofNat 16 (n % 0x1000)).toNat ≤ 0xFFF := by
  rw [BitVec.toNat_ofNat]
  omega

theorem completed_address (i : Instr) {s : State} (h : s.I.toNat ≤ 0xFFF) : (completed i s).I.toNat ≤ 0xFFF := by
  cases i with
  | ldI | addI | ldF | ldRegs => exact masked_address _
  | _ => exact (congrArg BitVec.toNat (completed_onlyChanges _ s .addressReg (by simp [mayChange]))).trans_le h

/-- The one entry an instruction writes is the pc of a CALL, which was fetched. -/
theorem completed_entries (i : Instr) {s : State} (h : ∀ j : Fin 16, (s.stack.get j).toNat ≤ 0xFFE)
    (hpc : s.pc.toNat ≤ 0xFFE) (j : Fin 16) : ((completed i s).stack.get j).toNat ≤ 0xFFE := by
  cases i with
  | call nnn =>
    show (s.stack.setIfInBounds s.sp.val s.pc)[j.val].toNat ≤ 0xFFE
    rw [Vector.getElem_setIfInBounds]
    split
    · exact hpc
    · exact h j
  | _ => exact (congrArg BitVec.toNat (completed_onlyChanges _ s (.stackEntry j) (by simp [mayChange]))).trans_le (h j)

/-- The largest pc is that of a JP V0 (R26). -/
theorem step_counter {s t : State} {w : Word} {i : Instr} (hinv : Inv s) (hs : s.status = .running)
    (hf : fetch s = .ok w) (hd : decodeWord w = .ok i) (hstep : step s = .next t) (ht : t.status = .running) :
    t.pc.toNat ≤ 0x10FE := by
  have hpc := (fetch_ok_iff hf).1
  have h := programCounterAfterCompletedCycle s t w i hinv hs hf hd hstep ht
  cases i with
  | jp nnn | call nnn =>
    have : t.pc.toNat = nnn.toNat := h
    omega
  | jpV0 nnn =>
    have : t.pc.toNat = nnn.toNat + (s.v 0).toNat := h
    omega
  | ret =>
    obtain ⟨j, -, hret⟩ := h
    have := hinv.entries j
    omega
  | seImm | sneImm | seReg | sneReg | skp | sknp =>
    have : t.pc.toNat = s.pc.toNat + 2 ∨ t.pc.toNat = s.pc.toNat + 4 := h
    omega
  | ldVxK =>
    simp only at h
    split at h <;> omega
  | _ =>
    have : t.pc.toNat = s.pc.toNat + 2 := h
    omega

theorem Inv.raise {s : State} (h : Inv s) {r : FaultRecord} (hpc : r.pc = s.pc) (hr : r.wf) :
    Inv { s with status := .faulted r } :=
  { memory := h.memory, address := h.address, counter := h.counter, entries := h.entries, fits := ⟨hpc, hr⟩ }

/-- Settles O24: a record fits its state, and what completes keeps each part of the invariant. -/
theorem stepKeepsInv : Obligations.StepKeepsInv := by
  intro s t hinv hstep
  cases step_outcome hstep with
  | halted => exact hinv
  | fetchFault _ hf => exact hinv.raise rfl (fetchFault_record_wf hf)
  | illegal _ _ hw => exact hinv.raise rfl (illegal_record_wf hw _)
  | raised _ _ _ hc => exact hinv.raise rfl ((checkFails_of_failingCheck hc).record_wf hinv.address _ _)
  | skipped hs hf =>
    have hpc := (fetch_ok_iff hf).1
    exact
      { memory := hinv.memory
        address := hinv.address
        counter := (State.advance_pc_toNat (by omega)).trans_le (by omega)
        entries := hinv.entries
        fits := statusFits_of_running hs }
  | @completed w i hs hf hd hc =>
    have ht : (completed i s).status = .running := (completed_status i s).trans hs
    exact
      { memory := completed_memory_wf i hinv.memory
        address := completed_address i hinv.address
        counter := step_counter hinv hs hf hd hstep ht
        entries := completed_entries i hinv.entries (fetch_ok_iff hf).1
        fits := statusFits_of_running ht }

/-! ## Host actions -/

theorem mayLoad_iff (s : State) : s.mayLoad = true ↔ s.status = .running ∧ s.phase = .fresh := by
  simp [State.mayLoad]

/-- A load keeps the invariant: the bytes keep the canonical form, and a failure is reported with its reason (R303). -/
theorem load_keepsInv {s : State} (h : Inv s) (hl : s.mayLoad = true) (image : Image) : Inv (s.load image) := by
  obtain ⟨hs, hphase⟩ := (mayLoad_iff s).1 hl
  cases image with
  | readFailure =>
    exact { memory := h.memory, address := h.address, counter := h.counter, entries := h.entries, fits := hphase }
  | bytes b =>
    rw [State.load]
    split
    case isTrue =>
      exact
        { memory := State.writeBytes_wf b h.memory _
          address := by simpa using h.address
          counter := by simpa using h.counter
          entries := by simpa using h.entries
          fits := statusFits_of_running (by simpa using hs) }
    case isFalse hb =>
      have hlen : maxProgram < b.length := by simpa [imageFits] using hb
      exact { memory := h.memory, address := h.address, counter := h.counter, entries := h.entries, fits := ⟨hlen, hphase⟩ }

theorem load_params (s : State) (image : Image) : (s.load image).params = s.params := by
  cases image with
  | readFailure => rfl
  | bytes b =>
    rw [State.load]
    split
    · exact State.writeBytes_params b s _
    · rfl

/-- A host action keeps the invariant and the parameters, or is a load the interface does not allow. -/
theorem hostAct_keepsInv (a : HostAction) {s : State} (h : Inv s) :
    (∃ t, hostAct a s = .next t ∧ Inv t ∧ t.params = s.params) ∨ hostAct a s = .refused .loadOutsideInterface := by
  cases a with
  | init =>
    obtain ⟨hmem, haddr, hpc, hentries, hfits⟩ := resetMeetsInv.2 s.params
    exact .inl ⟨s.init, rfl, ⟨hmem, haddr, hpc, hentries, hfits⟩, rfl⟩
  | loadProgram image =>
    rw [hostAct]
    split
    case isTrue hl => exact .inl ⟨_, rfl, load_keepsInv h hl image, load_params s image⟩
    case isFalse => exact .inr rfl
  | setKeys keys =>
    obtain ⟨hmem, haddr, hpc, hentries, hfits⟩ := h
    exact .inl ⟨_, rfl, ⟨hmem, haddr, hpc, hentries, hfits⟩, rfl⟩
  | step =>
    obtain ⟨t, ht⟩ := everyStepAnswersNext s
    exact .inl ⟨t, ht, stepKeepsInv s t h ht, step_params ht⟩
  | ackRedraw =>
    obtain ⟨hmem, haddr, hpc, hentries, hfits⟩ := h
    exact .inl ⟨_, rfl, ⟨hmem, haddr, hpc, hentries, hfits⟩, rfl⟩

/-- Settles O25, by induction on the actions. -/
theorem hostRunKeepsInv : Obligations.HostRunKeepsInv := by
  intro actions
  induction actions with
  | nil => exact fun s h => .inl ⟨s, rfl, h, rfl⟩
  | cons a rest ih =>
    intro s h
    obtain ⟨t, ht, hinv, hparams⟩ | hrefused := hostAct_keepsInv a h
    · rw [hostRun, ht, ← hparams]
      exact ih t hinv
    · right
      rw [hostRun, hrefused]

end Sys2Proof.Machine
end

section
/-! Control flow (40_control_flow.md) and conditional skips (41_conditional_skip.md), instruction by instruction: the frame
of each is `completed_onlyChanges`. -/

namespace Sys2Proof.Machine

theorem word_ofNat_toNat_add (w : Word) (n : Nat) : BitVec.ofNat 16 (w.toNat + n) = w + BitVec.ofNat 16 n := by
  apply BitVec.eq_of_toNat_eq
  simp [BitVec.toNat_add]

/-- Settles O26: CLS writes a framebuffer of zero rows. -/
theorem clsClearsTheScreen : Obligations.ClsClearsTheScreen := fun s =>
  ⟨rfl, completed .cls s, rfl, pixelAt_replicate_zero, rfl, State.advance_pc _ 2, completed_onlyChanges .cls s⟩

/-- Settles O27: the popped entry is the one below the stack pointer. -/
theorem retPopsTheStack : Obligations.RetPopsTheStack := by
  refine fun s => ⟨rfl, fun j hj => ?_, fun h => exec_of_fails (if_pos h)⟩
  have htop : s.sp.val - 1 = j.val := by omega
  refine ⟨completed .ret s, exec_of_passes (if_neg (by omega)), htop, ?_, completed_onlyChanges .ret s⟩
  simp only [completed, State.popPc, htop, word_ofNat_toNat_add]
  rfl

/-- Settles O28: nnn has 12 bits, so it fits pc as it is. -/
theorem jpSetsThePc : Obligations.JpSetsThePc := fun nnn s =>
  ⟨encode_toNat (.jp nnn), completed (.jp nnn) s, rfl, targetOf_toNat nnn, completed_onlyChanges (.jp nnn) s⟩

/-- Settles O29: the entry at the stack pointer takes the pc that still is the CALL's own. -/
theorem callPushesItsOwnAddress : Obligations.CallPushesItsOwnAddress := by
  refine fun nnn s => ⟨encode_toNat (.call nnn), fun j hj => ?_, fun h => exec_of_fails (if_pos h)⟩
  refine ⟨completed (.call nnn) s, exec_of_passes (if_neg (by omega)), ?_, ?_, targetOf_toNat nnn, ?_⟩
  · show (s.stack.setIfInBounds s.sp.val s.pc)[j.val] = s.pc
    rw [Vector.getElem_setIfInBounds, if_pos hj]
  · exact (Nat.mod_eq_of_lt (by omega)).trans (congrArg (· + 1) hj)
  · refine (completed_onlyChanges (.call nnn) s).mono fun p => Or.imp_right (Or.imp_right ?_)
    rintro ⟨k, hk, rfl⟩
    rw [Fin.ext (hk.symm.trans hj)]

/-- Settles O30: nnn + V0 is at most 0x10FE, so the 16-bit sum does not wrap. -/
theorem jpV0AddsTheOffset : Obligations.JpV0AddsTheOffset := fun nnn s =>
  ⟨encode_toNat (.jpV0 nnn), completed (.jpV0 nnn) s, rfl, offsetTarget_toNat nnn _, completed_onlyChanges (.jpV0 nnn) s⟩

/-- Settles O31: the RET pops the entry that the CALL pushed. -/
theorem returnResumesAfterTheCall : Obligations.ReturnResumesAfterTheCall := by
  intro nnn s t u hsp hcall hstack hu
  obtain ⟨-, hpush, -⟩ := callPushesItsOwnAddress nnn s
  obtain ⟨t', ht', hentry, hsp', -⟩ := hpush ⟨s.sp.val, hsp⟩ rfl
  cases hcall.symm.trans ht'
  obtain ⟨-, hpop, -⟩ := retPopsTheStack u
  obtain ⟨v, hv, hvsp, hvpc, -⟩ := hpop ⟨s.sp.val, hsp⟩ (hu ▸ hsp')
  exact ⟨v, hv, by rw [hvpc, hstack, hentry], Fin.ext hvsp⟩

/-! ## Skips -/

theorem State.advance_skip_pc (s : State) {c : Bool} {p : Prop} [Decidable p] (h : c = true ↔ p) :
    (s.advance (if c then 4 else 2)).pc = s.pc + if p then 4 else 2 := by
  by_cases hp : p
  · rw [if_pos (h.2 hp), if_pos hp]
    exact s.advance_pc 4
  · rw [if_neg (mt h.1 hp), if_neg hp]
    exact s.advance_pc 2

/-- Settles O32: the two comparisons, with their negations, are the skip conditions. -/
theorem compareSkipsMoveOnlyThePc : Obligations.CompareSkipsMoveOnlyThePc := by
  intro x y nn n s
  refine ⟨?_, ?_, ?_, ?_, ?_, ?_, ?_, ?_⟩
  iterate 4
    · simp only [encode_toNat]
      omega
  · exact ⟨_, rfl, s.advance_skip_pc beq_iff_eq, completed_onlyChanges (.seImm x nn) s⟩
  · exact ⟨_, rfl, s.advance_skip_pc bne_iff_ne, completed_onlyChanges (.sneImm x nn) s⟩
  · exact ⟨_, rfl, s.advance_skip_pc beq_iff_eq, completed_onlyChanges (.seReg x y n) s⟩
  · exact ⟨_, rfl, s.advance_skip_pc bne_iff_ne, completed_onlyChanges (.sneReg x y n) s⟩

/-- Settles O33: a register in 0..15 is the key's own index; above 15 the check fails. -/
theorem keySkipsReadTheKey : Obligations.KeySkipsReadTheKey := by
  intro x s
  refine ⟨?_, ?_, fun k hk => ?_, fun h => ⟨exec_of_fails (if_pos h), exec_of_fails (if_pos h)⟩⟩
  iterate 2
    · simp only [encode_toNat]
      omega
  have hpass : ¬(s.v x).toNat > 15 := by omega
  have hkey : Fin.ofNat 16 (s.v x).toNat = k := Fin.ext ((Nat.mod_eq_of_lt (by omega)).trans hk)
  refine ⟨⟨completed (.skp x) s, exec_of_passes (if_neg hpass), ?_, completed_onlyChanges (.skp x) s⟩,
    ⟨completed (.sknp x) s, exec_of_passes (if_neg hpass), ?_, completed_onlyChanges (.sknp x) s⟩⟩
  · rw [completed, hkey]
    exact s.advance_skip_pc beq_iff_eq
  · rw [completed, hkey, s.advance_skip_pc beq_iff_eq]
    cases s.key k <;> rfl

end Sys2Proof.Machine
end

section
/-! Register arithmetic, random and the register forms of the timers (42_register_arithmetic.md, 43_random.md,
45_timers_input.md). -/

namespace Sys2Proof.Machine

/-- Settles O34: each of the three is one register write, and the sum of bytes is the one modulo 256. -/
theorem loadAndAddImmediate : Obligations.LoadAndAddImmediate := by
  intro x y nn s
  refine ⟨?_, ?_, ?_, ?_, ?_, ?_⟩
  iterate 3
    · simp only [encode_toNat]
      omega
  · exact ⟨_, rfl, State.setV_v_same s x nn, State.advance_pc _ 2, completed_onlyChanges (.ldImm x nn) s⟩
  · refine ⟨_, rfl, ?_, State.advance_pc _ 2, completed_onlyChanges (.addImm x nn) s⟩
    rw [State.advance_v, State.setV_v_same]
    exact BitVec.toNat_add _ _
  · exact ⟨_, rfl, State.setV_v_same s x _, State.advance_pc _ 2, completed_onlyChanges (.ldReg x y) s⟩

/-- Settles O35: the three operations are those of BitVec, bit by bit. -/
theorem logicIsBitwiseWithoutFlag : Obligations.LogicIsBitwiseWithoutFlag := by
  intro x y s
  refine ⟨?_, ?_, ?_, ?_, ?_, ?_⟩
  iterate 3
    · simp only [encode_toNat]
      omega
  · refine ⟨_, rfl, fun b => ?_, State.advance_pc _ 2, completed_onlyChanges (.orReg x y) s⟩
    rw [State.advance_v, State.setV_v_same, BitVec.getLsbD_or]
  · refine ⟨_, rfl, fun b => ?_, State.advance_pc _ 2, completed_onlyChanges (.andReg x y) s⟩
    rw [State.advance_v, State.setV_v_same, BitVec.getLsbD_and]
  · refine ⟨_, rfl, fun b => ?_, State.advance_pc _ 2, completed_onlyChanges (.xorReg x y) s⟩
    rw [State.advance_v, State.setV_v_same, BitVec.getLsbD_xor]

/-- Settles O36: the result is written after the flag, so Vx holds the sum also for x = 15. -/
theorem addWritesCarryThenSum : Obligations.AddWritesCarryThenSum := by
  intro x y s
  refine ⟨?_, completed (.addReg x y) s, rfl, ?_, fun h => State.setFlagThenV_v_flag h s _ _, State.advance_pc _ 2,
    completed_onlyChanges (.addReg x y) s⟩
  · simp only [encode_toNat]
    omega
  · rw [completed, State.advance_v, State.setFlagThenV_v_result]
    exact BitVec.toNat_add _ _

/-- The difference of two bytes, modulo 256. -/
theorem byte_sub_toNat (a b : Byte) : (a - b).toNat = (a.toNat + 256 - b.toNat) % 256 := by
  rw [BitVec.toNat_sub]
  omega

/-- Settles O37: SUB and SUBN are one flag-and-result write with the operands exchanged. -/
theorem subtractionsWriteNoBorrowThenDifference : Obligations.SubtractionsWriteNoBorrowThenDifference := by
  intro x y s
  refine ⟨?_, ?_,
    ⟨completed (.sub x y) s, rfl, ?_, fun h => State.setFlagThenV_v_flag h s _ _, State.advance_pc _ 2,
      completed_onlyChanges (.sub x y) s⟩,
    ⟨completed (.subn x y) s, rfl, ?_, fun h => State.setFlagThenV_v_flag h s _ _, State.advance_pc _ 2,
      completed_onlyChanges (.subn x y) s⟩⟩
  iterate 2
    · simp only [encode_toNat]
      omega
  iterate 2
    · rw [completed, State.advance_v, State.setFlagThenV_v_result]
      exact byte_sub_toNat _ _

theorem byte_shiftRight_toNat (b : Byte) : (b >>> 1).toNat = b.toNat / 2 := by
  rw [BitVec.toNat_ushiftRight, Nat.shiftRight_eq_div_pow, Nat.pow_one]

theorem byte_shiftLeft_toNat (b : Byte) : (b <<< 1).toNat = 2 * b.toNat % 256 := by
  rw [BitVec.toNat_shiftLeft, Nat.shiftLeft_eq, Nat.mul_comm]

theorem shiftRightFlag_toNat (b : Byte) : (shiftRightFlag b).toNat = b.toNat % 2 := by
  rw [shiftRightFlag, BitVec.toNat_and]
  exact Nat.and_one_is_mod _

/-- The raw bit 7 of a byte, and what it says of the byte's number (R170). -/
theorem shiftLeftFlag_toNat (b : Byte) : (shiftLeftFlag b).toNat = if b.toNat ≥ 128 then 0x80 else 0 := by
  have hmask : shiftLeftFlag b = if b.getLsbD 7 then BitVec.twoPow 8 7 else 0#8 := BitVec.and_twoPow b 7
  have hbit : b.getLsbD 7 = decide (128 ≤ b.toNat) := BitVec.msb_eq_decide b
  rw [hmask, hbit]
  by_cases h : 128 ≤ b.toNat <;> simp [h]

/-- Settles O38: the flags are masks of Vx as it was before the shift, `shiftLeftFlag_toNat` for the raw bit 7. -/
theorem shiftsWriteTheBitShiftedOut : Obligations.ShiftsWriteTheBitShiftedOut := by
  intro x n s
  refine ⟨?_, ?_,
    ⟨completed (.shr x n) s, rfl, ?_, fun h => ?_, State.advance_pc _ 2, completed_onlyChanges (.shr x n) s⟩,
    ⟨completed (.shl x n) s, rfl, ?_, fun h => ?_, State.advance_pc _ 2, completed_onlyChanges (.shl x n) s⟩⟩
  iterate 2
    · simp only [encode_toNat]
      omega
  · rw [completed, State.advance_v, State.setFlagThenV_v_result, byte_shiftRight_toNat]
  · rw [completed, State.advance_v, State.setFlagThenV_v_flag h, shiftRightFlag_toNat]
  · rw [completed, State.advance_v, State.setFlagThenV_v_result, byte_shiftLeft_toNat]
  · rw [completed, State.advance_v, State.setFlagThenV_v_flag h, shiftLeftFlag_toNat]

/-- Settles O39: a bit of the result is a bit of the mask. -/
theorem rndIsTheCycleByteUnderTheMask : Obligations.RndIsTheCycleByteUnderTheMask := by
  intro x nn s
  have hv : (completed (.rnd x nn) s).v x = s.rndByte &&& nn := State.setV_v_same s x _
  refine ⟨?_, completed (.rnd x nn) s, rfl, hv, fun b hb => ?_, State.advance_pc _ 2, completed_onlyChanges (.rnd x nn) s⟩
  · simp only [encode_toNat]
    omega
  · rw [hv, BitVec.getLsbD_and, Bool.and_eq_true] at hb
    exact hb.2

/-- Settles O47: each of the three is one write, read before the tick that `exec` does not do. -/
theorem timerTransfers : Obligations.TimerTransfers := by
  intro x s
  refine ⟨?_, ?_, ?_,
    ⟨_, rfl, State.setV_v_same s x _, State.advance_pc _ 2, completed_onlyChanges (.ldVxDt x) s⟩,
    ⟨_, rfl, rfl, State.advance_pc _ 2, completed_onlyChanges (.ldDtVx x) s⟩,
    ⟨_, rfl, rfl, State.advance_pc _ 2, completed_onlyChanges (.ldStVx x) s⟩⟩
  iterate 3
    · simp only [encode_toNat]
      omega

end Sys2Proof.Machine
end

section
/-! Memory and address register (44_memory_address.md R200 to R205): what is stored, loaded, and fetched again. -/

namespace Sys2Proof.Machine

/-- Settles O40: each of the three writes to I is masked to 12 bits, and only the sum needs it. -/
theorem addressRegisterWrites : Obligations.AddressRegisterWrites := by
  intro nnn x s
  refine ⟨encode_toNat (.ldI nnn), ?_, ?_,
    ⟨completed (.ldI nnn) s, rfl, ?_, State.advance_pc _ 2, completed_onlyChanges (.ldI nnn) s⟩,
    ⟨completed (.addI x) s, rfl, State.setI_I_toNat s _, State.advance_pc _ 2, completed_onlyChanges (.addI x) s⟩,
    ⟨completed (.ldF x) s, rfl, ?_, State.advance_pc _ 2, completed_onlyChanges (.ldF x) s⟩⟩
  iterate 2
    · simp only [encode_toNat]
      omega
  · exact (State.setI_I_toNat s _).trans (Nat.mod_eq_of_lt nnn.isLt)
  · refine (State.setI_I_toNat s _).trans (Nat.mod_eq_of_lt ?_)
    rw [glyphAddress, fontBase]
    omega

/-! ## Stores -/

/-- What a completed store of bytes leaves at the k-th address from I. -/
theorem read_storedBytes (s : State) (bytes : List Byte) (h : s.I.toNat + bytes.length ≤ memSize) {k : Nat}
    (hk : k < bytes.length) :
    ((s.writeBytes s.I.toNat bytes).advance 2).read (s.I.toNat + k) = bytes.getD k 0 := by
  rw [State.advance_read, State.read_writeBytes bytes s _ h, if_pos (by omega), Nat.add_sub_cancel_left]

theorem State.writeBytes_advance_pc (s : State) (a n : Nat) (bytes : List Byte) :
    ((s.writeBytes a bytes).advance n).pc = s.pc + BitVec.ofNat 16 n := by
  rw [State.advance_pc, State.writeBytes_pc]

/-- A digit of a byte fits a byte. -/
theorem digit_toNat {d : Nat} (h : d ≤ 9) : (BitVec.ofNat 8 d).toNat = d := by
  rw [BitVec.toNat_ofNat]
  omega

/-- The three digits that a completed LD B, Vx leaves in memory (R203). -/
theorem read_completed_ldB (x : Reg) {s : State} (h : s.I.toNat + 2 ≤ 0xFFF) :
    ((completed (.ldB x) s).read s.I.toNat).toNat = (s.v x).toNat / 100 ∧
    ((completed (.ldB x) s).read (s.I.toNat + 1)).toNat = (s.v x).toNat / 10 % 10 ∧
    ((completed (.ldB x) s).read (s.I.toNat + 2)).toNat = (s.v x).toNat % 10 := by
  have hm : memSize = 0x1000 := rfl
  have hlen : (decimalDigits (s.v x)).length = 3 := rfl
  have hread (k : Nat) (hk : k < 3) :
      (completed (.ldB x) s).read (s.I.toNat + k) = (decimalDigits (s.v x)).getD k 0 :=
    read_storedBytes s _ (by omega) (hlen.symm ▸ hk)
  have hfirst := hread 0 (by omega)
  rw [Nat.add_zero] at hfirst
  rw [hfirst, hread 1 (by omega), hread 2 (by omega)]
  exact ⟨digit_toNat (by omega), digit_toNat (by omega), digit_toNat (by omega)⟩

/-- The registers that a completed LD [I], Vx leaves in memory (R204). -/
theorem read_completed_stRegs {x i : Reg} (hi : i ≤ x) {s : State} (h : s.I.toNat + x.val ≤ 0xFFF) :
    (completed (.stRegs x) s).read (s.I.toNat + i.val) = s.v i := by
  have hm : memSize = 0x1000 := rfl
  have hix : i.val ≤ x.val := hi
  have hlen := s.regsUpTo_length x
  exact (read_storedBytes s (s.regsUpTo x) (by omega) (by omega)).trans (s.regsUpTo_getD x i hi)

theorem exec_ldB_inside (x : Reg) {s : State} (h : s.I.toNat + 2 ≤ 0xFFF) :
    exec (.ldB x) s = .next (completed (.ldB x) s) :=
  exec_access_inside rfl (.inr (Nat.succ_le_succ h))

theorem exec_stRegs_inside {x : Reg} {s : State} (h : s.I.toNat + x.val ≤ 0xFFF) :
    exec (.stRegs x) s = .next (completed (.stRegs x) s) :=
  exec_access_inside rfl (.inr (Nat.succ_le_succ h))

theorem exec_ldRegs_inside {x : Reg} {s : State} (h : s.I.toNat + x.val ≤ 0xFFF) :
    exec (.ldRegs x) s = .next (completed (.ldRegs x) s) :=
  exec_access_inside rfl (.inr (Nat.succ_le_succ h))

/-- Settles O41: inside memory the store completes with the digits, else the access check fails. -/
theorem decimalDigitsAreStored : Obligations.DecimalDigitsAreStored := by
  intro x s
  refine ⟨?_, fun h => ?_, fun hI hout => exec_access_outside hI (Nat.succ_lt_succ hout)⟩
  · simp only [encode_toNat]
    omega
  · obtain ⟨h100, h10, h1⟩ := read_completed_ldB x h
    exact ⟨completed (.ldB x) s, exec_ldB_inside x h, h100, h10, h1, s.writeBytes_advance_pc _ 2 _,
      completed_onlyChanges (.ldB x) s⟩

/-- Settles O42: inside memory the store completes with V0..Vx, else the access check fails. -/
theorem registersAreStored : Obligations.RegistersAreStored := by
  intro x s
  refine ⟨?_, fun h => ?_, fun hI hout => exec_access_outside hI (Nat.succ_lt_succ hout)⟩
  · simp only [encode_toNat]
    omega
  · exact ⟨completed (.stRegs x) s, exec_stRegs_inside h, fun i hi => read_completed_stRegs hi h,
      s.writeBytes_advance_pc _ 2 _, completed_onlyChanges (.stRegs x) s⟩

/-! ## Loads -/

/-- A completed LD Vx, [I] has the bytes from I up in V0..Vx (R205). -/
theorem v_completed_ldRegs {x i : Reg} (hi : i ≤ x) (s : State) :
    (completed (.ldRegs x) s).v i = s.read (s.I.toNat + i.val) := by
  have hix : i.val ≤ x.val := hi
  have hlen := State.readBytes_length (x.val + 1) s s.I.toNat
  rw [completed, State.advance_v, State.setI_v, State.loadRegsFrom_v _ _ _ (by omega), if_pos (by omega), Nat.sub_zero]
  exact State.readBytes_getD _ _ _ _ (by omega)

theorem address_completed_ldRegs (x : Reg) (s : State) :
    (completed (.ldRegs x) s).I.toNat = (s.I.toNat + x.val + 1) % 4096 := by
  rw [completed, State.advance_I, State.setI_I_toNat]

theorem mem_completed_ldRegs (x : Reg) (s : State) : (completed (.ldRegs x) s).mem = s.mem := by
  rw [completed, State.advance_mem, State.setI_mem, State.loadRegsFrom_mem]

/-- Settles O43: inside memory the load completes, else the access check fails. -/
theorem registersAreLoaded : Obligations.RegistersAreLoaded := by
  intro x s
  refine ⟨?_, fun h => ?_, fun hI hout => exec_access_outside hI (Nat.succ_lt_succ hout)⟩
  · simp only [encode_toNat]
    omega
  · refine ⟨completed (.ldRegs x) s, exec_ldRegs_inside h, fun i hi => v_completed_ldRegs hi s,
      address_completed_ldRegs x s, ?_, completed_onlyChanges (.ldRegs x) s⟩
    rw [completed, State.advance_pc, State.setI_pc, State.loadRegsFrom_pc]
    rfl

/-- Settles O45: a loaded register is the byte stored from it, and the others are in neither frame. -/
theorem storeThenLoadRestoresTheRegisters : Obligations.StoreThenLoadRestoresTheRegisters := by
  intro x s t h hstore
  cases hstore.symm.trans (exec_stRegs_inside h)
  have hI : (completed (.stRegs x) s).I = s.I := State.writeBytes_I _ s _
  refine ⟨_, exec_ldRegs_inside (by rw [hI]; exact h), ?_, mem_completed_ldRegs x _,
    by rw [address_completed_ldRegs, hI]⟩
  refine Vector.ext fun k hk => ?_
  show (completed (.ldRegs x) _).v ⟨k, hk⟩ = s.v ⟨k, hk⟩
  by_cases hkx : (⟨k, hk⟩ : Reg) ≤ x
  · rw [v_completed_ldRegs hkx, hI]
    exact read_completed_stRegs hkx h
  · have hload := completed_onlyChanges (.ldRegs x) (completed (.stRegs x) s) (.reg ⟨k, hk⟩)
      (by simpa [mayChange] using hkx)
    have hstored := completed_onlyChanges (.stRegs x) s (.reg ⟨k, hk⟩) (by simp [mayChange])
    exact hload.trans hstored

/-! ## Fetching what was stored -/

theorem fetch_setPc (t : State) {a : Nat} {w : Word} (hw : w.toNat = a) (ha : a ≤ 0xFFE) :
    fetch (t.setPc w) = .ok (wordOfBytes (t.read a) (t.read (a + 1))) := by
  subst hw
  exact fetch_ok ha

theorem word_ofNat_toNat {a : Nat} (h : a ≤ 0xFFF) : (BitVec.ofNat 16 a).toNat = a := by
  rw [BitVec.toNat_ofNat]
  omega

/-- Settles O46: the two bytes of the fetched word lie inside what was stored. -/
theorem storesAreSeenByTheNextFetch : Obligations.StoresAreSeenByTheNextFetch := by
  intro x s t
  refine ⟨fun h hstore k k' hk hk' => ?_, fun h hstore => ?_⟩
  · cases hstore.symm.trans (exec_stRegs_inside h)
    have hkx : k.val < x.val := hk
    have hk'x : k' ≤ x := Fin.le_def.2 (by omega)
    have hnext : s.I.toNat + k.val + 1 = s.I.toNat + k'.val := by omega
    rw [fetch_setPc _ (word_ofNat_toNat (by omega)) (by omega), hnext,
      read_completed_stRegs hk.le h, read_completed_stRegs hk'x h]
  · cases hstore.symm.trans (exec_ldB_inside x h)
    obtain ⟨h100, h10, h1⟩ := read_completed_ldB x h
    refine ⟨⟨_, fetch_setPc _ rfl (by omega), ?_⟩, ⟨_, fetch_setPc _ (word_ofNat_toNat (by omega)) (by omega), ?_⟩⟩
    · rw [wordOfBytes_toNat, h100, h10]
    · rw [wordOfBytes_toNat, h10, h1]

end Sys2Proof.Machine
end

section
/-! The key wait (45_timers_input.md R223, R224). -/

namespace Sys2Proof.Machine

/-- With no key pressed the wait leaves the state as it is. -/
theorem exec_ldVxK_no_key (x : Reg) {s : State} (h : ∀ k, s.key k = false) : exec (.ldVxK x) s = .next s := by
  rw [exec_of_passes rfl, completed, selectKey_none h]
  rfl

/-- Settles O48: the selected key is pressed, so it is the pressed key when there is one only. -/
theorem keyWaitPollsTheKeys : Obligations.KeyWaitPollsTheKeys := by
  refine fun x s => ⟨?_, exec_ldVxK_no_key x, fun hpressed => ?_⟩
  · simp only [encode_toNat]
    omega
  · obtain ⟨k, hk⟩ := (exists_key_iff_selectKey s).1 hpressed
    have hkey : s.key k = true := selectKey_pressed hk
    have hdone : completed (.ldVxK x) s = (s.setV x (BitVec.ofNat 8 k.val)).advance 2 := by
      rw [completed, hk]
      rfl
    refine ⟨completed (.ldVxK x) s, k, exec_of_passes rfl, hkey, ?_, fun k' honly => (honly k).1 hkey, ?_,
      completed_onlyChanges (.ldVxK x) s⟩
    · rw [hdone, State.advance_v, State.setV_v_same, BitVec.toNat_ofNat]
      omega
    · rw [hdone]
      exact State.advance_pc _ 2

/-- A cycle of the wait with no key pressed is the tick. -/
theorem step_key_wait {x : Reg} {s : State} (hs : s.status = .running) (hf : fetch s = .ok (encode (.ldVxK x)))
    (h : ∀ k, s.key k = false) : step s = .next s.endCycle := by
  rw [step_of_fetch_ok hs hf, runWord_ok (decodeOfEncodeIsTheInstruction (.ldVxK x)), exec_ldVxK_no_key x h]
  exact finish_completed hs

/-- Settles O49, by induction on the number of Steps: each is the tick, which leaves the wait as it was. -/
theorem keyWaitSpinsWhileTimersRun : Obligations.KeyWaitSpinsWhileTimersRun := by
  intro x n
  induction n with
  | zero => exact fun s _ _ _ => ⟨s, rfl, rfl, rfl, rfl, rfl⟩
  | succ n ih =>
    intro s hs hf hkeys
    obtain ⟨t, ht, hpc, hV, hDT, hST⟩ := ih s.endCycle hs hf hkeys
    refine ⟨t, ?_, hpc, hV, ?_, ?_⟩
    · rw [List.replicate_succ, hostRun, hostAct, step_key_wait hs hf hkeys]
      exact ht
    · rw [hDT, State.endCycle_DT, tickDown_toNat, Nat.sub_sub, Nat.add_comm]
    · rw [hST, State.endCycle_ST, tickDown_toNat, Nat.sub_sub, Nat.add_comm]

end Sys2Proof.Machine
end

section
/-! Drawing (46_draw.md R240 to R244): DRW toggles the pixels its set sprite bits land on. -/

namespace Sys2Proof.Machine

/-- The pixels that the sprite of DRW Vx, Vy, n lands on, as a list. -/
def drawHits (x y : Reg) (n : Nibble) (s : State) : List (Fin 64 × Fin 32) :=
  spriteHits (s.v x) (s.v y) 0 (s.readBytes s.I.toNat n.toNat)

theorem mem_drawHits (x y : Reg) (n : Nibble) (s : State) (px : Fin 64) (py : Fin 32) :
    (px, py) ∈ drawHits x y n s ↔ SpriteHit s x y n px py := by
  rw [drawHits, mem_spriteHits, State.readBytes_length, SpriteHit]
  refine exists_congr fun r => exists_congr fun c => and_congr_right fun hr => ?_
  rw [State.readBytes_getD _ _ _ _ hr, Nat.zero_add]

/-- A sprite has at most 15 rows, so no pixel is hit twice. -/
theorem drawHits_nodup (x y : Reg) (n : Nibble) (s : State) : (drawHits x y n s).Nodup := by
  refine spriteHits_nodup _ _ _ _ ?_
  rw [State.readBytes_length]
  omega

section

variable (x y : Reg) (n : Nibble) (s : State) (px : Fin 64) (py : Fin 32)

/-- Every pixel after a DRW, and whether the drawing collided. -/
theorem drawnSprite_eq : pixelAt (drawnSprite x y n s).1 px py =
    (pixelAt s.fb px py ^^ decide ((px, py) ∈ drawHits x y n s)) := by
  rw [drawnSprite, drawRows_eq]
  exact (foldl_toggleStep _ (drawHits_nodup x y n s) (s.fb, false)).1 px py

theorem drawnSprite_pixel_hit (h : SpriteHit s x y n px py) :
    pixelAt (drawnSprite x y n s).1 px py = !pixelAt s.fb px py := by
  rw [drawnSprite_eq, decide_eq_true ((mem_drawHits x y n s px py).2 h), Bool.xor_true]

theorem drawnSprite_pixel_missed (h : ¬ SpriteHit s x y n px py) :
    pixelAt (drawnSprite x y n s).1 px py = pixelAt s.fb px py := by
  rw [drawnSprite_eq, decide_eq_false (mt (mem_drawHits x y n s px py).1 h), Bool.xor_false]

theorem drawnSprite_collision_iff : (drawnSprite x y n s).2 = true ↔
    ∃ px py, SpriteHit s x y n px py ∧ pixelAt s.fb px py = true := by
  have h : (drawnSprite x y n s).2 = (drawHits x y n s).any (fun p => pixelAt s.fb p.1 p.2) := by
    rw [drawnSprite, drawRows_eq]
    exact ((foldl_toggleStep _ (drawHits_nodup x y n s) (s.fb, false)).2).trans (Bool.false_or _)
  rw [h, List.any_eq_true, Prod.exists]
  exact exists_congr fun px => exists_congr fun py => and_congr_left' (mem_drawHits x y n s px py)

theorem completed_drw_vf :
    (completed (.drw x y n) s).v vf = collisionFlag (drawnSprite x y n s).2 := State.setV_v_same _ vf _

end

theorem exec_drw_inside (x y : Reg) {n : Nibble} {s : State} (h : n.toNat = 0 ∨ s.I.toNat + n.toNat ≤ 0x1000) :
    exec (.drw x y n) s = .next (completed (.drw x y n) s) := exec_access_inside rfl h

theorem collisionFlag_of_true {c : Bool} (h : c = true) : collisionFlag c = 1 := if_pos h

theorem collisionFlag_of_not {c : Bool} (h : ¬ c = true) : collisionFlag c = 0 := if_neg h

/-- Settles O50: the sprite pixel by pixel is `drawnSprite_eq`, the collision `drawnSprite_collision_iff`. -/
theorem drawTogglesTheSpritePixels : Obligations.DrawTogglesTheSpritePixels := by
  intro x y n s
  refine ⟨?_, fun h => ?_, fun hI hn hout => exec_access_outside hI (by rw [memSize, accessLength]; omega)⟩
  · simp only [encode_toNat]
    omega
  · refine ⟨completed (.drw x y n) s, exec_drw_inside x y h, drawnSprite_pixel_hit x y n s,
      drawnSprite_pixel_missed x y n s, fun hc => ?_, fun hc => ?_, rfl, State.advance_pc _ 2,
      completed_onlyChanges (.drw x y n) s⟩
    · rw [completed_drw_vf, collisionFlag_of_true ((drawnSprite_collision_iff x y n s).2 hc)]
    · rw [completed_drw_vf, collisionFlag_of_not (mt (drawnSprite_collision_iff x y n s).1 hc)]

/-- Where a sprite lands depends on I, memory and the two registers alone. -/
theorem spriteHit_congr {s t : State} {x y : Reg} (hI : t.I = s.I) (hread : ∀ a, t.read a = s.read a)
    (hx : t.v x = s.v x) (hy : t.v y = s.v y) (n : Nibble) (px : Fin 64) (py : Fin 32) :
    SpriteHit t x y n px py ↔ SpriteHit s x y n px py := by
  simp only [SpriteHit, hI, hread, hx, hy]

/-- Settles O51: the second drawing toggles the same pixels, and a pixel it finds set was 0 before the first. -/
theorem drawTwiceRestoresTheScreen : Obligations.DrawTwiceRestoresTheScreen := by
  intro x y n s t t' u h hdraw hfb hI hread hx hy hdraw'
  cases hdraw.symm.trans (exec_drw_inside x y h)
  cases hdraw'.symm.trans (exec_drw_inside x y (by rw [hI]; exact h))
  have hhit := spriteHit_congr hI hread hx hy n
  have hpixel : t'.fb = (drawnSprite x y n s).1 := hfb
  have hset : (∃ px py, SpriteHit t' x y n px py ∧ pixelAt t'.fb px py = true) ↔
      ∃ px py, SpriteHit s x y n px py ∧ pixelAt s.fb px py = false := by
    refine exists_congr fun px => exists_congr fun py => (and_congr_left' (hhit px py)).trans ?_
    refine and_congr_right fun hs => ?_
    rw [hpixel, drawnSprite_pixel_hit x y n s px py hs, Bool.not_eq_true']
  refine ⟨framebuffer_ext fun px py => ?_, fun hc => ?_, fun hc => ?_⟩
  · show pixelAt (drawnSprite x y n t').1 px py = _
    by_cases hs : SpriteHit s x y n px py
    · rw [drawnSprite_pixel_hit x y n t' px py ((hhit px py).2 hs), hpixel, drawnSprite_pixel_hit x y n s px py hs,
        Bool.not_not]
    · rw [drawnSprite_pixel_missed x y n t' px py (mt (hhit px py).1 hs), hpixel,
        drawnSprite_pixel_missed x y n s px py hs]
  · rw [completed_drw_vf, collisionFlag_of_true ((drawnSprite_collision_iff x y n t').2 (hset.2 hc))]
  · rw [completed_drw_vf, collisionFlag_of_not (mt (fun hd => hset.1 ((drawnSprite_collision_iff x y n t').1 hd)) hc)]

end Sys2Proof.Machine
end

section
/-! Initialisation, program load and the host (60_exceptions.md R290 to R294; 70_reset_and_hazards.md R300 to R304). -/

namespace Sys2Proof.Machine

/-! ## The contents of reset -/

theorem State.resetWith_read (p : Params) (a : Nat) : (State.resetWith p).read a = resetByte p.fontset a := rfl

theorem resetByte_font (font : Vector Byte 80) (i : Fin 80) : resetByte font (0x50 + i.val) = font.get i := by
  have hi := i.isLt
  rw [resetByte, dif_pos (by rw [fontBase]; omega)]
  exact congrArg font.get (Fin.ext (Nat.add_sub_cancel_left _ _))

theorem resetByte_outside (font : Vector Byte 80) {a : Nat} (h : a < 0x50 ∨ 0xA0 ≤ a) : resetByte font a = 0 :=
  dif_neg (by rw [fontBase]; omega)

/-- Settles O53: unlisted cells read as the reset contents, and the sixteen glyphs are evaluated. -/
theorem resetContents : Obligations.ResetContents := by
  refine ⟨fun p => ⟨fun i => resetByte_font p.fontset i, fun a ha => resetByte_outside p.fontset (by omega),
    fun x => ?_, rfl, rfl, fun j => ?_⟩, by decide⟩
  · simp [State.v, State.resetWith, Vector.get_eq_getElem]
  · simp [State.resetWith, Vector.get_eq_getElem]

/-- Settles O58: the two bytes at 0x200 are 0, and 0x0000 is no instruction. -/
theorem emptyMemoryFaultsAtTheEntryPoint : Obligations.EmptyMemoryFaultsAtTheEntryPoint := by
  intro p hp
  have hf : fetch (State.resetWith p) = .ok 0x0000 := by
    rw [fetch_ok (by show (0x200 : Word).toNat ≤ 0xFFE; decide), State.resetWith_read, State.resetWith_read,
      resetByte_outside _ (.inr (by show 0xA0 ≤ (0x200 : Word).toNat; decide)),
      resetByte_outside _ (.inr (by show 0xA0 ≤ (0x200 : Word).toNat + 1; decide))]
    rfl
  refine (StepOutcome.illegal rfl hf (by decide) ?_).step_eq
  rintro ⟨hnop, -⟩
  cases hp.symm.trans hnop

/-! ## Host actions -/

theorem load_allowed {s : State} (hs : s.status = .running) (hp : s.phase = .fresh) (image : Image) :
    hostAct (.loadProgram image) s = .next (s.load image) := if_pos ((mayLoad_iff s).2 ⟨hs, hp⟩)

theorem load_refused {s : State} (h : ¬(s.status = .running ∧ s.phase = .fresh)) (image : Image) :
    hostAct (.loadProgram image) s = .refused .loadOutsideInterface := if_neg (mt (mayLoad_iff s).1 h)

/-- Settles O54: off Running, a load is refused and a Step does nothing. -/
theorem onlyInitLeavesAHalt : Obligations.OnlyInitLeavesAHalt := by
  refine ⟨fun _ => rfl, fun a s t hs h => ?_⟩
  cases a with
  | init => exact .inl rfl
  | loadProgram image => cases h.symm.trans (load_refused (fun hl => hs hl.1) image)
  | setKeys | ackRedraw =>
    cases h
    exact .inr rfl
  | step =>
    cases h.symm.trans (step_of_halted hs)
    exact .inr rfl

theorem load_bytes {b : List Byte} (h : b.length ≤ 3584) (s : State) :
    s.load (.bytes b) = { s.writeBytes progBase b with phase := .loaded } := if_pos (decide_eq_true h)

theorem load_too_large {b : List Byte} (h : 3584 < b.length) (s : State) :
    s.load (.bytes b) = { s with status := .loadFailed (.tooLarge b.length) } :=
  if_neg fun hfits => Nat.not_le.2 h (of_decide_eq_true hfits)

theorem OnlyChanges.setPhase (s : State) (ph : Phase) : OnlyChanges s { s with phase := ph } (fun p => p = .phase) := by
  intro p hp
  cases p with
  | phase => exact absurd rfl hp
  | _ => rfl

/-- Settles O55: the image ends at 0xFFF at most, and the phase it leaves allows no second load. -/
theorem loadCopiesTheImage : Obligations.LoadCopiesTheImage := by
  intro s b hs hp hb
  refine ⟨_, load_allowed hs hp _, ?_⟩
  rw [load_bytes hb]
  refine ⟨fun i hi => ?_, ?_, load_refused fun hl => by cases hl.2⟩
  · refine (State.read_writeBytes b s progBase (by rw [progBase, memSize]; omega) _).trans ?_
    rw [progBase, if_pos (by omega), Nat.add_sub_cancel_left]
  · exact ((OnlyChanges.writeBytes s progBase b).trans (OnlyChanges.setPhase _ _)).mono fun _ => Or.symm

/-- Settles O56: a Step leaves a record or the phase `stepped`. -/
theorem loadAfterAStepIsRefused : Obligations.LoadAfterAStepIsRefused := by
  intro s t image hs hstep
  refine load_refused ?_ image
  rintro ⟨ht, hp⟩
  cases step_outcome hstep with
  | halted h => exact h hs
  | fetchFault | illegal | raised => cases ht
  | skipped | completed => cases hp

/-- Settles O57: a load that fails writes the status alone, and the machine it leaves is halted. -/
theorem loadFailureCopiesNothing : Obligations.LoadFailureCopiesNothing := by
  intro s hs hp
  refine ⟨fun b hb => ⟨?_, step_of_halted nofun⟩, load_allowed hs hp _, step_of_halted nofun⟩
  rw [load_allowed hs hp, load_too_large hb]

/-- Settles O59: SetKeys writes one field, the keys. -/
theorem setKeysReplacesTheKeys : Obligations.SetKeysReplacesTheKeys := by
  refine fun s keys => ⟨s.setKeys keys, rfl, fun _ => rfl, fun p hp => ?_⟩
  cases p with
  | key k => exact absurd ⟨k, rfl⟩ hp
  | _ => rfl

/-- Framebuffer bit y*64 + x is the pixel (x, y) (R31). -/
theorem framebufferBit_eq (s : State) {x : Fin 64} {y : Fin 32} {p : Fin 2048} (h : p.val = y.val * 64 + x.val) :
    s.framebufferBit p = pixelAt s.fb x y := by
  have hx : Fin.ofNat 64 (p.val % 64) = x := Fin.ext (by simp [Fin.ofNat]; omega)
  have hy : Fin.ofNat 32 (p.val / 64) = y := Fin.ext (by simp [Fin.ofNat]; omega)
  rw [State.framebufferBit, hx, hy]

/-- Settles O60: the reads are fields, and a machine with a record stays as it is. -/
theorem hostReadsReportTheState : Obligations.HostReadsReportTheState := by
  refine fun s x y p => ⟨framebufferBit_eq s, rfl, rfl, decide_eq_true_iff, rfl, rfl, fun t r _ hr n => ?_⟩
  exact ⟨t, hostRun_steps_of_halted (by simp [hr]) n, hr⟩

end Sys2Proof.Machine
end
